-- ==== Sys2Proof/Word.lean ====
section
/-! DEFINITION. Word.lean: the two widths of the CORE (spec 00_scope.md R8, R12).
A word is 32 bits, a byte 8 bits, both numbered from bit 0 at the least significant end. -/

namespace Sys2Proof

/-- A `word` of R12: 32 bits, unsigned unless a rule reads it as two's complement. -/
abbrev Word := BitVec 32

/-- A `byte` of R12: 8 bits. -/
abbrev Byte := BitVec 8

/-- The 16-word array shape shared by the cipher state S (R20) and the working buffer W (R33). -/
abbrev Words := Vector Word 16

/-- The 64-byte shape of a keystream block (R8, R33, R105). -/
abbrev KeyBlock := Vector Byte 64

end Sys2Proof
end

