-- ==== Sys2Proof/Config.lean ====
section
/-! DEFINITION. Config.lean: what one implementation fixes (spec 00_scope.md R8, R9) and the free values,
the points the spec leaves open. A free value is `opaque`: it has no body, so no proof can use a value of it. -/

namespace Sys2Proof

/-- The lane widths the COMBINE datapath implements, all of `P_WIDTHS` (R9, R72). AUTO is not a width: it stands
for one of these. -/
inductive LaneWidth where
  | b1 | v16 | v32 | v64
deriving DecidableEq, Repr, Inhabited

/-- The number of bytes one lane covers (R72). -/
def LaneWidth.bytes : LaneWidth → Nat
  | .b1 => 1
  | .v16 => 16
  | .v32 => 32
  | .v64 => 64

/-- The WID code of a lane width, 1 to 4 (R72; reported in CAP.AUTO_WID, R28). -/
def LaneWidth.wid : LaneWidth → Nat
  | .b1 => 1
  | .v16 => 2
  | .v32 => 3
  | .v64 => 4

/-- The hidden buffers of R33: the working buffer W and the keystream buffer K. -/
structure Hidden where
  w : Words
  k : KeyBlock
deriving DecidableEq, Repr, Inhabited

/-- Both hidden buffers cleared to zero, what `P_HIDDEN_CLEAR` selects (R9, R33). -/
def Hidden.cleared : Hidden := ⟨Vector.replicate 16 0, Vector.replicate 64 0⟩

/-- Which free value: the CORE that draws it and how many it has drawn before. THE MODEL's OWN (log 7). Values drawn by
different COREs are different arguments, so nothing ties what one CORE draws to what another does (log 27). -/
structure Draw where
  core : Nat
  number : Nat
deriving DecidableEq, Repr, Inhabited

/-- The next draw of the same CORE. -/
def Draw.next (d : Draw) : Draw := { d with number := d.number + 1 }

namespace Config

/-- Key length in bytes (R8). -/
abbrev keyBytes : Nat := 32

/-- Nonce length in bytes (R8). -/
abbrev nonceBytes : Nat := 12

/-- Block size in bytes (R8). -/
abbrev blockBytes : Nat := 64

/-- Double-rounds per block (R8, R155): 20 rounds, C1. -/
abbrev doubleRounds : Nat := 10

/-- `P_MAX_BUF`, the largest length of any operand buffer (R9, D11). -/
abbrev maxBuf : Nat := 2 ^ 31 - 1

/-- `P_CHUNK_DEFAULT`, the default chunk size of a stream (R9). -/
abbrev chunkDefault : Int := 1024

/-- `P_AUTO_WIDTH` (R9, R191): OPEN, any of the four widths. A free value (log 5), one for all COREs of a system (log 27). -/
opaque autoWidth : LaneWidth

/-- `P_HIDDEN_CLEAR` (R9, R33, R235): OPEN, whether W and K are cleared after use. A free value (log 6), one for all COREs
of a system (log 27). -/
opaque hiddenClear : Bool

/-- What W and K hold where the spec leaves their contents open (R32, R33, I8), one free value per draw (log 6). -/
opaque freeHidden : Draw → Hidden

/-- Which of the two orders R280 admits for a reset requested during a command, one free value per draw (log 4). -/
opaque freeChoice : Draw → Bool

/-- `P_NCORES` less one (R9, R262): OPEN, so that a system has at least one CORE. A free value (log 16). -/
opaque extraCores : Nat

end Config

end Sys2Proof
end

