-- ==== Sys2Proof/Syntax.lean ====
section
/-! DEFINITION. Syntax.lean: operand buffers, transactions and the commands of CHACHA20-CORE
(spec 00_scope.md R11, 30_encoding.md R70 to R78; one constructor of `Instr` per row of spec/opcode_table.json). -/

namespace Sys2Proof

/-- `Buf` of R11: absent, or present with its bytes in index order. Operands are values (R11, R57). -/
inductive Buf where
  | absent
  | present (bytes : List Byte)
deriving DecidableEq, Repr, Inhabited

/-- What the HOST presents at the command port (R11): the command word, operands A and B, and X. -/
structure Transaction where
  cmd : Word
  a : Buf
  b : Buf
  x : Word
deriving DecidableEq, Repr, Inhabited

/-- A legal command with its operands in the roles of R75. -/
inductive Instr where
  /-- INIT (R130): A is the key, B the nonce, X the counter. -/
  | init (key nonce : Buf) (ctr : Word)
  /-- COMBINE with WID = AUTO (R180, R191): A is the output, B the input, X the signed count. -/
  | combine (out inp : Buf) (x : Word)
  /-- COMBINE.B1 (R180, R72): the scalar path. -/
  | combineB1 (out inp : Buf) (x : Word)
  /-- COMBINE.V16 (R180, R72): 16-byte lanes. -/
  | combineV16 (out inp : Buf) (x : Word)
  /-- COMBINE.V32 (R180, R72): 32-byte lanes. -/
  | combineV32 (out inp : Buf) (x : Word)
  /-- COMBINE.V64 (R180, R72): 64-byte lanes. -/
  | combineV64 (out inp : Buf) (x : Word)
  /-- DISPOSE (R230): every operand is ignored (R75), so it carries none. -/
  | dispose
deriving DecidableEq, Repr

end Sys2Proof
end

