-- ==== Sys2Proof/WellFormed.lean ====
section
/-! DEFINITION. WellFormed.lean: what the command port admits (spec 00_scope.md R9, R11, 30_encoding.md R77):
a present buffer of at most `P_MAX_BUF` bytes. Every other property of an operand is checked by the command itself. -/

namespace Sys2Proof

/-- A buffer that can be presented (R77). -/
def Buf.wf : Buf → Bool
  | .absent => true
  | .present bytes => decide (bytes.length ≤ Config.maxBuf)

/-- A transaction the port admits (R77). -/
def Transaction.wf (t : Transaction) : Bool := t.a.wf && t.b.wf

/-- A command whose operands the port admits (R77). -/
def Instr.wf : Instr → Bool
  | .init key nonce _ => key.wf && nonce.wf
  | .combine out inp _ => out.wf && inp.wf
  | .combineB1 out inp _ => out.wf && inp.wf
  | .combineV16 out inp _ => out.wf && inp.wf
  | .combineV32 out inp _ => out.wf && inp.wf
  | .combineV64 out inp _ => out.wf && inp.wf
  | .dispose => true

end Sys2Proof
end

