-- ==== Sys2Proof/Decode.lean ====
section
/-! DEFINITION. Decode.lean: the decoder, total on every command word and rejecting by name, and the encoder
(spec 30_encoding.md R70 to R78, R82). -/

namespace Sys2Proof

/-- OPC, bits 7:0 of a command word (R70). -/
def opc (cmd : Word) : BitVec 8 := cmd.extractLsb' 0 8

/-- WID, bits 10:8 of a command word (R70). -/
def wid (cmd : Word) : BitVec 3 := cmd.extractLsb' 8 3

/-- RES, bits 31:11 of a command word (R70). -/
def res (cmd : Word) : BitVec 21 := cmd.extractLsb' 11 21

/-- Why a command word is ILLEGAL. The spec has one verdict for all of them (R74); the names are the model's (log 19). -/
inductive Illegal where
  /-- OPC names no command (R71). -/
  | unknownOperation
  /-- RES is not 0 (R73). -/
  | reservedBits
  /-- OPC is COMBINE and WID is 5, 6 or 7 (R72). -/
  | reservedWidth
  /-- OPC is INIT or DISPOSE and WID is not 0 (R73). -/
  | widthNotZero
deriving DecidableEq, Repr

/-- The name of what makes an illegal word illegal. -/
def whyIllegal (cmd : Word) : Illegal :=
  if res cmd ≠ 0 then .reservedBits
  else if opc cmd = 0x02 then .reservedWidth
  else if opc cmd = 0x01 ∨ opc cmd = 0x03 then .widthNotZero
  else .unknownOperation

/-- COMBINE with the lane width selector WID, 0 to 4 (R72). -/
def combineOfWid (w : BitVec 3) (t : Transaction) : Instr :=
  match w.toNat with
  | 0 => .combine t.a t.b t.x
  | 1 => .combineB1 t.a t.b t.x
  | 2 => .combineV16 t.a t.b t.x
  | 3 => .combineV32 t.a t.b t.x
  | _ => .combineV64 t.a t.b t.x

/-- `decode` of R74, with the operands put in the roles of R75. -/
def decode (t : Transaction) : Except Illegal Instr :=
  if t.cmd = 0x00000001 then .ok (.init t.a t.b t.x)
  else if t.cmd = 0x00000003 then .ok .dispose
  else if res t.cmd = 0 ∧ opc t.cmd = 0x02 ∧ wid t.cmd ≤ 0b100 then .ok (combineOfWid (wid t.cmd) t)
  else .error (whyIllegal t.cmd)

/-- The instruction the decoder reads from the word `w` of `nbits` bits, presented with absent buffers and X = 0
(log 20). No form is longer than one 32-bit word (R79). -/
def decodeTableWord (nbits w : Nat) : Option Instr :=
  if nbits ≤ 32 then (decode ⟨BitVec.ofNat 32 (w % 2 ^ nbits), .absent, .absent, 0⟩).toOption
  else none

/-- The seven legal command words, as R82 lists them. -/
def legalWords : List Word :=
  [0x00000001, 0x00000002, 0x00000102, 0x00000202, 0x00000302, 0x00000402, 0x00000003]

/-- The command word of a command (R82). -/
def commandWord : Instr → Word
  | .init _ _ _ => 0x00000001
  | .combine _ _ _ => 0x00000002
  | .combineB1 _ _ _ => 0x00000102
  | .combineV16 _ _ _ => 0x00000202
  | .combineV32 _ _ _ => 0x00000302
  | .combineV64 _ _ _ => 0x00000402
  | .dispose => 0x00000003

/-- The transaction that presents a command (R75, R82). DISPOSE ignores its operands; they are sent absent and 0. -/
def encode (i : Instr) : Transaction :=
  match i with
  | .init key nonce ctr => ⟨commandWord i, key, nonce, ctr⟩
  | .combine out inp x => ⟨commandWord i, out, inp, x⟩
  | .combineB1 out inp x => ⟨commandWord i, out, inp, x⟩
  | .combineV16 out inp x => ⟨commandWord i, out, inp, x⟩
  | .combineV32 out inp x => ⟨commandWord i, out, inp, x⟩
  | .combineV64 out inp x => ⟨commandWord i, out, inp, x⟩
  | .dispose => ⟨commandWord i, .absent, .absent, 0⟩

end Sys2Proof
end

