-- ==== Sys2Proof/Machine/State.lean ====
section
/-! DEFINITION. Machine/State.lean: the state of the CORE and of its command port as plain data, the reasons a run can
stop, and the state after reset (spec 10_state.md, 00_scope.md R10, R11, 70_reset_and_hazards.md R280, R281). -/

namespace Sys2Proof.Machine

/-- LIFE of R24: one bit. -/
inductive Life where
  /-- No cipher is live (0). -/
  | disposed
  /-- A cipher is live (1). -/
  | ready
deriving DecidableEq, Repr

/-- The bit LIFE reads as (R24, R26). -/
def Life.bit : Life → BitVec 1
  | .disposed => 0
  | .ready => 1

/-- The response codes of R251 that are in use. -/
inductive Code where
  | ok | invalidKeyLength | invalidKeyLengthNull | invalidNonceLength | nullInput | nullOutput
  | invalidLength | bufferTooSmall | useAfterDispose | illegalCommand
deriving DecidableEq, Repr

/-- The number of each response code (R251, D29). -/
def Code.byte : Code → Byte
  | .ok => 0x00
  | .invalidKeyLength => 0x01
  | .invalidKeyLengthNull => 0x02
  | .invalidNonceLength => 0x03
  | .nullInput => 0x04
  | .nullOutput => 0x05
  | .invalidLength => 0x06
  | .bufferTooSmall => 0x07
  | .useAfterDispose => 0x08
  | .illegalCommand => 0x09

/-- The response of R11: an 8-bit code and the buffer R. -/
structure Response where
  code : Byte
  r : Buf
deriving DecidableEq, Repr

/-- What the HOST side can put at the command port. -/
inductive Request where
  /-- A command (R10, R11). -/
  | command (t : Transaction)
  /-- A reset, taken between commands (R280). -/
  | reset
  /-- A command during which a reset is requested (R280): the reset is taken before it or after it. -/
  | resetDuring (t : Transaction)
deriving DecidableEq, Repr

/-- The state of one CORE and its command port. INVENTORY.md lists every field with its rule and reset value. -/
structure State where
  /-- S[0..15] (R20, R21). -/
  words : Words
  /-- LIFE (R24). -/
  life : Life
  /-- LAST_CODE (R27). -/
  lastCode : Byte
  /-- The one field of CAP that is not the same on every CORE, AUTO_WID (R28); no step writes it. -/
  capAuto : LaneWidth
  /-- W and K (R33): nothing reads them. -/
  hidden : Hidden
  /-- The requests the command port has accepted and not yet performed, next first (R10, R60; log 1). -/
  queue : List Request
  /-- The response the last request performed delivered to the HOST, none if it delivered none (R10, R11; log 2). -/
  response : Option Response
  /-- THE MODEL's OWN: the next free value to draw (log 7). -/
  draws : Draw
deriving DecidableEq, Repr

/-- Faults. No command of the CORE ends in one (R250, R255): an error is a response code. -/
inductive Fault where
  /-- A HOST stream procedure waits forever for a channel that never answers (R216, I16 `stuck`). Raised only by
  Machine/Stream.lean, never by `step`. Safe: the stream makes no progress on the hardware either. -/
  | channelNeverAnswers
deriving DecidableEq, Repr

/-- Refusals: what the spec says a model does not admit. -/
inductive Refusal where
  /-- An instruction without a meaning, by its mnemonic. Raised by no arm: every command has its meaning. Safe. -/
  | notModelled (mnemonic : String)
  /-- A buffer longer than `P_MAX_BUF` is presented: the port admits no such transaction (R77, I13 `refuse`). Raised by
  the command port, `issue`. Safe. -/
  | bufferTooLong
  /-- A stream's chunk size is outside 1 .. `P_MAX_BUF` (R211, I4 `refuse`). Raised by Machine/Stream.lean. Safe. -/
  | chunkOutOfRange
  /-- A channel breaks its contract of R210: it returns more bytes than asked for, or answers something other than
  what the stream is waiting for. Raised by Machine/Stream.lean. Safe. -/
  | channelContract
  /-- DECRYPT_TO_TEXT yields bytes that are not UTF-8 (R219, I15 `refuse`). Raised by Machine/HostOps.lean. Safe. -/
  | invalidUtf8
deriving DecidableEq, Repr

/-- How the model's functions end. -/
abbrev Result (α : Type) := Host.Outcome α Fault Refusal

/-- The machine right after reset (R32, R280): S zero, DISPOSED, LAST_CODE 0x00, CAP at its constant. W and K are
unspecified (R32, log 6); the port holds nothing and has delivered nothing (log 1, log 2). -/
def State.reset : State where
  words := Vector.replicate 16 0
  life := .disposed
  lastCode := 0x00
  capAuto := Config.autoWidth
  hidden := Config.freeHidden ⟨0, 0⟩
  queue := []
  response := none
  draws := ⟨0, 1⟩

end Sys2Proof.Machine
end

