-- ==== Sys2Proof/Machine/Primitives.lean ====
section
/-! DEFINITION. Machine/Primitives.lean: the word-arithmetic primitives and little-endian serialization
(spec 40_word_primitives.md R100 to R110). Pure functions: they read no state, write no flag and raise no error. -/

namespace Sys2Proof.Machine

/-- `add32` (R100): the sum modulo 2^32, the carry discarded. -/
def add32 (a b : Word) : Word := a + b

/-- `xor32` (R101). -/
def xor32 (a b : Word) : Word := a ^^^ b

/-- `rotl32` (R102), for 0 ≤ n ≤ 31. -/
def rotl32 (x : Word) (n : Nat) : Word :=
  if n = 0 then x else (x <<< n) ||| (x >>> (32 - n))

/-- `inc32` (R107): the advance of the block counter by one. -/
def inc32 (c : Word) : Word := add32 c 1

/-- Byte `i` of a present buffer. Every caller has checked `i` against the length first (R103). -/
def byteAt (buf : List Byte) (i : Nat) : Byte := buf.getD i 0

/-- `unpack_le` (R103): the byte at the lowest index is bits 7:0. -/
def unpackLe (buf : List Byte) (i : Nat) : Word :=
  (byteAt buf i).setWidth 32 ||| ((byteAt buf (i + 1)).setWidth 32 <<< 8)
    ||| ((byteAt buf (i + 2)).setWidth 32 <<< 16) ||| ((byteAt buf (i + 3)).setWidth 32 <<< 24)

/-- `pack_le` (R104): bits 7:0 first. -/
def packLe (w : Word) : List Byte :=
  [w.extractLsb' 0 8, w.extractLsb' 8 8, w.extractLsb' 16 8, w.extractLsb' 24 8]

/-- `serialize` (R105), byte by byte: byte n is bits 8(n % 4)+7 : 8(n % 4) of word n / 4. -/
def serialize (v : Words) : KeyBlock :=
  Vector.ofFn fun n : Fin 64 => (v[n.val / 4]).extractLsb' (8 * (n.val % 4)) 8

/-- `words_le` (R106): word i is `unpack_le(buf, 4i)`. -/
def wordsLe (buf : List Byte) (n : Nat) : List Word := (List.range n).map fun i => unpackLe buf (4 * i)

/-- SIGMA (R131): `words_le` of the ASCII bytes "expand 32-byte k". PRESUMED by the spec itself (G1, log 9). -/
def sigma : Vector Word 4 := #v[0x61707865, 0x3320646e, 0x79622d32, 0x6b206574]

end Sys2Proof.Machine
end

