-- ==== Sys2Proof/Machine/Flags.lean ====
section
/-! DEFINITION. Machine/Flags.lean: the status indications. The CORE has no flags and no condition codes (spec
10_state.md R29); what the HOST can read is STATUS (R26) and CAP (R28). Both reads are functions of the state, so
neither has a side effect. -/

namespace Sys2Proof.Machine

/-- A read of STATUS (R26): LIFE in bit 0, LAST_CODE in bits 15:8, bits 7:1 and 31:16 hardwired 0. -/
def State.status (s : State) : Word := (s.lastCode.setWidth 32 <<< 8) ||| s.life.bit.setWidth 32

/-- A read of CAP (R28): W1, W16, W32, W64 in bits 3:0, AUTO_WID in bits 6:4, bits 31:7 hardwired 0. -/
def State.cap (s : State) : Word := (BitVec.ofNat 32 s.capAuto.wid <<< 4) ||| 0b1111

/-- STATUS.LIFE as the HOST tests it (R210): bit 0 of a read of STATUS. -/
def State.statusReady (s : State) : Bool := s.status.getLsbD 0

end Sys2Proof.Machine
end

