-- ==== Sys2Proof/Machine/Ops.lean ====
section
/-! DEFINITION. Machine/Ops.lean: the named operations over the state that the commands share. The CORE has no memory
(spec 20_memory.md R50) and takes no trap (60_exceptions.md R255, R256): ending a command with a code, `respond` and
`raise`, stands where another machine takes an exception, and there is no return from one. -/

namespace Sys2Proof.Machine

/-- `respond(code, R)` (00_scope.md R13): the response is delivered and LAST_CODE takes its code (R27). -/
def respond (c : Code) (r : Buf) (s : State) : Result State :=
  .next { s with lastCode := c.byte, response := some ⟨c.byte, r⟩ }

/-- `raise` (00_scope.md R13, 60_exceptions.md R253): a status return with the output buffer unchanged, writing nothing
but LAST_CODE. -/
def raise (c : Code) (out : Buf) (s : State) : Result State := respond c out s

/-- Every word of S is 0 (45_lifecycle.md R230, 10_state.md R32). -/
def zeroWords : Words := Vector.replicate 16 0

/-- The end of a cipher: S[0..15] <- 0 and LIFE <- DISPOSED (41_init.md R130, 45_lifecycle.md R230). -/
def State.endCipher (s : State) : State := { s with words := zeroWords, life := .disposed }

/-- S[i] <- v for consecutive i, one list of words after another from word `i` on. -/
def setWords (w : Words) (i : Nat) : List Word → Words
  | [] => w
  | v :: vs => setWords (w.setIfInBounds i v) (i + 1) vs

/-- W and K after a command that ran the block step (R33, R235): cleared where `P_HIDDEN_CLEAR` says so, else any value
(I8), drawn fresh (log 6). -/
def State.leaveHidden (s : State) : State :=
  { s with
    hidden := if Config.hiddenClear then Hidden.cleared else Config.freeHidden s.draws
    draws := s.draws.next }

/-- Reset of the CORE (70_reset_and_hazards.md R280, 10_state.md R32): S zero, DISPOSED, LAST_CODE 0x00; CAP is not
affected; W and K are unspecified (log 6). What the port holds and has delivered is not CORE state. -/
def State.takeReset (s : State) : State :=
  { s with
    words := zeroWords
    life := .disposed
    lastCode := 0x00
    hidden := Config.freeHidden s.draws
    draws := s.draws.next }

/-- Run the second where the first goes on. -/
def andThen {α β : Type} (r : Result α) (f : α → Result β) : Result β :=
  match r with
  | .next a => f a
  | .fault e => .fault e
  | .refused e => .refused e

end Sys2Proof.Machine
end

