-- ==== Sys2Proof/Machine/Operands.lean ====
section
/-! DEFINITION. Machine/Operands.lean: operand assembly and the operand checks of COMBINE (spec 30_encoding.md R75,
R76, 43_combine.md R180, 60_exceptions.md R254). -/

namespace Sys2Proof.Machine

/-- The count of COMBINE: X read as two's complement (R76, C4). -/
def countOf (x : Word) : Int := if x.getLsbD 31 then (x.toNat : Int) - 2 ^ 32 else x.toNat

/-- A COMBINE whose checks all pass: the bytes of the output and input buffers and the count. -/
structure CombineOperands where
  out : List Byte
  inp : List Byte
  count : Nat
deriving DecidableEq, Repr

/-- The checks of COMBINE in the order of R180 and R254: the lifecycle first, then absence (input before output), then
the count against the input, then the output's capacity. -/
def combineOperands (life : Life) (out inp : Buf) (x : Word) : Except Code CombineOperands :=
  match life, inp, out with
  | .disposed, _, _ => .error .useAfterDispose
  | .ready, .absent, _ => .error .nullInput
  | .ready, .present _, .absent => .error .nullOutput
  | .ready, .present b, .present a =>
    if countOf x < 0 ∨ (b.length : Int) < countOf x then .error .invalidLength
    else if (a.length : Int) < countOf x then .error .bufferTooSmall
    else .ok ⟨a, b, (countOf x).toNat⟩

/-- `zeros(n)` of R80: n zero bytes. -/
def zeros (n : Nat) : List Byte := List.replicate n 0

end Sys2Proof.Machine
end

