-- ==== Sys2Proof/Machine/Block.lean ====
section
/-! DEFINITION. Machine/Block.lean: the block function, the internal step COMBINE performs once per block (spec
42_block.md R150 to R163), as a pure function of S (10_state.md R33). -/

namespace Sys2Proof.Machine

/-- The four words one quarter-round mixes (R151). -/
structure Quad where
  a : Word
  b : Word
  c : Word
  d : Word
deriving DecidableEq, Repr

/-- The eight steps of the quarter-round in order, each reading what the steps before it wrote (R151, C5). -/
def quarterRound (q : Quad) : Quad :=
  let a := add32 q.a q.b
  let d := rotl32 (xor32 q.d a) 16
  let c := add32 q.c d
  let b := rotl32 (xor32 q.b c) 12
  let a := add32 a b
  let d := rotl32 (xor32 d a) 8
  let c := add32 c d
  let b := rotl32 (xor32 b c) 7
  ⟨a, b, c, d⟩

/-- `QR(a, b, c, d)` on four distinct indices of W (R151). -/
def qr (a b c d : Fin 16) (w : Words) : Words :=
  let q := quarterRound ⟨w[a], w[b], w[c], w[d]⟩
  (((w.set a q.a).set b q.b).set c q.c).set d q.d

/-- The column round (R152). -/
def columnRound (w : Words) : Words :=
  qr 3 7 11 15 (qr 2 6 10 14 (qr 1 5 9 13 (qr 0 4 8 12 w)))

/-- The diagonal round (R153). -/
def diagonalRound (w : Words) : Words :=
  qr 3 4 9 14 (qr 2 7 8 13 (qr 1 6 11 12 (qr 0 5 10 15 w)))

/-- A double-round: the column round, then the diagonal round (R154). -/
def doubleRound (w : Words) : Words := diagonalRound (columnRound w)

/-- `n` double-rounds, the first applied first. -/
def doubleRounds : Nat → Words → Words
  | 0, w => w
  | n + 1, w => doubleRounds n (doubleRound w)

/-- The mixer: 10 double-rounds (R155, C1). -/
def mix (w : Words) : Words := doubleRounds Config.doubleRounds w

/-- State accumulation: W[i] <- W[i] + S[i] (R156). -/
def accumulate (w s : Words) : Words := Vector.ofFn fun i => add32 w[i] s[i]

/-- The keystream block of the state S (R157, R160). -/
def keystream (s : Words) : KeyBlock := serialize (accumulate (mix s) s)

/-- Counter advance with its one-word carry (R158, R159). -/
def advance (s : Words) : Words :=
  let c := inc32 s[12]
  if c = 0 then (s.set 12 c).set 13 (add32 s[13] 1) else s.set 12 c

/-- The block step `block()` (R160): the keystream block, and S with the counter advanced. -/
def block (s : Words) : KeyBlock × Words := (keystream s, advance s)

/-- The counter pair read as one 64-bit number, C of R161. -/
def counterPair (s : Words) : Nat := s[13].toNat * 2 ^ 32 + s[12].toNat

/-- S with its counter pair set to `c` modulo 2^64: the state of `KS(c)` in 43_combine.md R186. -/
def withCounter (s : Words) (c : Nat) : Words :=
  (s.set 12 (BitVec.ofNat 32 c)).set 13 (BitVec.ofNat 32 (c / 2 ^ 32))

/-- The keystream byte for output byte `p` of a COMBINE issued in state S: `KS(C0 + p / 64)[p % 64]` (R186). -/
def keyByte (s : Words) (p : Nat) : Byte := (keystream (withCounter s (counterPair s + p / 64)))[p % 64]

/-- The number of block steps of a COMBINE of `n` bytes: `n / 64`, and one more for a tail (43_combine.md R185). -/
def blocksFor (n : Nat) : Nat := n / 64 + if n % 64 = 0 then 0 else 1

end Sys2Proof.Machine
end

