-- ==== Sys2Proof/Machine/Init.lean ====
section
/-! DEFINITION. Machine/Init.lean: the meaning of INIT (spec 41_init.md R130 to R135). -/

namespace Sys2Proof.Machine

/-- Key setup (R130): S[0..3] <- SIGMA, S[4..11] <- the key's words (R109, R131). -/
def keySetup (key : List Byte) (w : Words) : Words :=
  setWords (setWords w 0 sigma.toList) 4 (wordsLe key 8)

/-- Counter and nonce setup (R130): S[12] <- X, S[13..15] <- the nonce's words (R107, R108). -/
def nonceSetup (nonce : List Byte) (ctr : Word) (w : Words) : Words :=
  setWords (w.set 12 ctr) 13 (wordsLe nonce 3)

/-- INIT (R130). The live cipher ends before any check (R133), the key is checked before the nonce, and what the key
setup wrote is zeroed before a nonce error is surfaced (R134). -/
def execInit (key nonce : Buf) (ctr : Word) (s : State) : Result State :=
  let s := s.endCipher
  match key with
  | .absent => respond .invalidKeyLengthNull .absent s
  | .present k =>
    if k.length ≠ Config.keyBytes then respond .invalidKeyLength .absent s
    else
      let s := { s with words := keySetup k s.words }
      match nonce with
      | .absent => respond .invalidNonceLength .absent { s with words := zeroWords }
      | .present n =>
        if n.length ≠ Config.nonceBytes then respond .invalidNonceLength .absent { s with words := zeroWords }
        else respond .ok .absent { s with words := nonceSetup n ctr s.words, life := .ready }

end Sys2Proof.Machine
end

