-- ==== Sys2Proof/Machine/Combine.lean ====
section
/-! DEFINITION. Machine/Combine.lean: the meanings of COMBINE and its four lane-width forms (spec 43_combine.md R180 to
R195). Each form is one line over `combineAt`; the lanes are those of R188. -/

namespace Sys2Proof.Machine

/-- Bytes `o .. o+n-1` of a buffer. -/
def slice (buf : List Byte) (o n : Nat) : List Byte := (buf.drop o).take n

/-- The buffer with `bs` written at index `o`. -/
def splice (buf : List Byte) (o : Nat) (bs : List Byte) : List Byte :=
  buf.take o ++ bs ++ buf.drop (o + bs.length)

/-- The little-endian number of a byte string. -/
def leNat : List Byte → Nat
  | [] => 0
  | b :: bs => b.toNat + 256 * leNat bs

/-- A lane load (R188): `w` bytes as a value of 8·w bits. The order is little-endian (log 10). -/
def laneLoad (w : Nat) (bs : List Byte) : BitVec (8 * w) := BitVec.ofNat (8 * w) (leNat bs)

/-- A lane store (R188): the `w` bytes of a value of 8·w bits, in the same order as `laneLoad`. -/
def laneStore (w : Nat) (v : BitVec (8 * w)) : List Byte := (List.range w).map fun i => v.extractLsb' (8 * i) 8

/-- One lane XOR at buffer offset `o` for lane `k` (R188): the lane's input bytes XOR its keystream bytes, written to
the same bytes of the output. -/
def xorLane (w : Nat) (inp : List Byte) (o : Nat) (ks : List Byte) (r : List Byte) (k : Nat) : List Byte :=
  splice r (o + k * w)
    (laneStore w (laneLoad w (slice inp (o + k * w) w) ^^^ laneLoad w (slice ks (k * w) w)))

/-- `xor_block(R, B, o, ks, w)` (R182): the 64/w lane XORs of one full block (R188). -/
def xorBlock (w : Nat) (r inp : List Byte) (o : Nat) (ks : List Byte) : List Byte :=
  (List.range (Config.blockBytes / w)).foldl (xorLane w inp o ks) r

/-- The tail (R183, R189): one byte at a time, the first `tail` bytes only, whatever the lane width. -/
def xorTail (tail : Nat) (r inp : List Byte) (o : Nat) (ks : List Byte) : List Byte :=
  (List.range tail).foldl (fun r i => r.set (o + i) (byteAt inp (o + i) ^^^ byteAt ks i)) r

/-- The output buffer and S, as the loop of R180 carries them. -/
structure CombineRun where
  r : List Byte
  words : Words
deriving DecidableEq, Repr

/-- One full block (R182): a block step, then its lanes. -/
def fullBlock (w : LaneWidth) (inp : List Byte) (run : CombineRun) (j : Nat) : CombineRun :=
  let (ks, words) := block run.words
  ⟨xorBlock w.bytes run.r inp (Config.blockBytes * j) ks.toList, words⟩

/-- The data path of COMBINE (R180 to R183): count / 64 full blocks in order, then a tail step if count % 64 is not 0. -/
def combineData (w : LaneWidth) (ops : CombineOperands) (words : Words) : CombineRun :=
  let full := ops.count / Config.blockBytes
  let tail := ops.count % Config.blockBytes
  let run := (List.range full).foldl (fullBlock w ops.inp) ⟨ops.out, words⟩
  if tail = 0 then run
  else
    let (ks, words) := block run.words
    ⟨xorTail tail run.r ops.inp (Config.blockBytes * full) ks.toList, words⟩

/-- COMBINE at a lane width (R180): check, or transform and respond with the output buffer. A command that runs no
block step (count = 0, R194) leaves W and K as they were. -/
def combineAt (w : LaneWidth) (out inp : Buf) (x : Word) (s : State) : Result State :=
  match combineOperands s.life out inp x with
  | .error c => raise c out s
  | .ok ops =>
    let run := combineData w ops s.words
    let s := if ops.count = 0 then s else s.leaveHidden
    respond .ok (.present run.r) { s with words := run.words }

/-- COMBINE, WID = AUTO (R180, R191): the width CAP.AUTO_WID reports. -/
def execCombine (out inp : Buf) (x : Word) (s : State) : Result State := combineAt s.capAuto out inp x s

/-- COMBINE.B1 (R180, R72). -/
def execCombineB1 (out inp : Buf) (x : Word) (s : State) : Result State := combineAt .b1 out inp x s

/-- COMBINE.V16 (R180, R72). -/
def execCombineV16 (out inp : Buf) (x : Word) (s : State) : Result State := combineAt .v16 out inp x s

/-- COMBINE.V32 (R180, R72). -/
def execCombineV32 (out inp : Buf) (x : Word) (s : State) : Result State := combineAt .v32 out inp x s

/-- COMBINE.V64 (R180, R72). -/
def execCombineV64 (out inp : Buf) (x : Word) (s : State) : Result State := combineAt .v64 out inp x s

end Sys2Proof.Machine
end

