-- ==== Sys2Proof/Machine/Dispose.lean ====
section
/-! DEFINITION. Machine/Dispose.lean: the meaning of DISPOSE (spec 45_lifecycle.md R230, R231). -/

namespace Sys2Proof.Machine

/-- DISPOSE (R230): end the cipher if one is live, and respond 0x00 either way. -/
def execDispose (s : State) : Result State :=
  match s.life with
  | .ready => respond .ok .absent s.endCipher
  | .disposed => respond .ok .absent s

end Sys2Proof.Machine
end

