-- ==== Sys2Proof/Machine/Dispatch.lean ====
section
/-! DEFINITION. Machine/Dispatch.lean: one arm per command, each a direct call of its meaning. -/

namespace Sys2Proof.Machine

/-- The effect of a command (spec 41_init.md R130, 43_combine.md R180, 45_lifecycle.md R230). -/
def exec (i : Instr) (s : State) : Host.Outcome State Fault Refusal :=
  match i with
  | .init key nonce ctr => Sys2Proof.Machine.execInit key nonce ctr s
  | .combine out inp x => Sys2Proof.Machine.execCombine out inp x s
  | .combineB1 out inp x => Sys2Proof.Machine.execCombineB1 out inp x s
  | .combineV16 out inp x => Sys2Proof.Machine.execCombineV16 out inp x s
  | .combineV32 out inp x => Sys2Proof.Machine.execCombineV32 out inp x s
  | .combineV64 out inp x => Sys2Proof.Machine.execCombineV64 out inp x s
  | .dispose => Sys2Proof.Machine.execDispose s

end Sys2Proof.Machine
end

