-- ==== Sys2Proof/Machine/Port.lean ====
section
/-! DEFINITION. Machine/Port.lean: the command port (spec 00_scope.md R10, R11, 30_encoding.md R74, R77,
70_reset_and_hazards.md R280, R281). -/

namespace Sys2Proof.Machine

/-- An illegal command word (R74, R78, R253): code 0x09 with R = operand A as presented; nothing but LAST_CODE is
written and no operand is read. -/
def illegalCommand (t : Transaction) (s : State) : Result State := raise .illegalCommand t.a s

/-- One command transaction, as one atomic transition (R10, R56): the port admits it (R77), the word is decoded before
anything else is looked at (R254), and the command runs. -/
def issue (t : Transaction) (s : State) : Result State :=
  if t.wf then
    match decode t with
    | .ok i => exec i s
    | .error _ => illegalCommand t s
  else .refused .bufferTooLong

/-- A reset requested while command `t` is in progress (R280, I12): either the command is not performed and gets no
response, or it completes and the reset follows. Which one is a free value (log 4). -/
def issueWithReset (t : Transaction) (s : State) : Result State :=
  if t.wf then
    let first := Config.freeChoice s.draws
    let s := { s with draws := s.draws.next }
    if first then .next { s.takeReset with response := none }
    else andThen (issue t s) fun s => .next s.takeReset
  else .refused .bufferTooLong

/-- The next request at the port (R60). With none the CORE waits, unchanged (R281, log 3). -/
def serve (s : State) : Result State :=
  match s.queue with
  | [] => .next s
  | .command t :: rest => issue t { s with queue := rest }
  | .reset :: rest => .next { s.takeReset with queue := rest, response := none }
  | .resetDuring t :: rest => issueWithReset t { s with queue := rest }

/-- The table word `w` presented at the port before anything else, with absent buffers and X = 0 (log 20). -/
def presentWord (s : State) (nbits w : Nat) : State :=
  { s with queue := .command ⟨BitVec.ofNat 32 (w % 2 ^ nbits), .absent, .absent, 0⟩ :: s.queue }

end Sys2Proof.Machine
end

