-- ==== Sys2Proof/Machine/Step.lean ====
section
/-! DEFINITION. Machine/Step.lean: one step of the machine. The CORE fetches nothing (spec 10_state.md R30): a step
performs the next request at its command port. -/

namespace Sys2Proof.Machine

/-- One step: the next request the command port has accepted (R10, R60). -/
def step (s : State) : Host.Outcome State Fault Refusal := serve s

/-- `s` with the command word `w` next at the command port (log 1, log 20). -/
def State.withFetchWord (s : State) (nbits w : Nat) : State := presentWord s nbits w

end Sys2Proof.Machine
end

