-- ==== Sys2Proof/Machine/Assembler.lean ====
section
/-! DEFINITION. Machine/Assembler.lean: the spec's assembly syntax as abstract syntax, and the assembler (spec
30_encoding.md R80, R82). The characters of a line are not modelled (log 26). -/

namespace Sys2Proof.Machine

/-- A buffer operand of an assembly line (R80). -/
inductive BufOperand where
  | absent
  /-- `zeros(n)` -/
  | zeros (n : Nat)
  /-- `bytes(a..b)`. R80 gives the run for a ≤ b only; what it denotes for a > b is the model's choice (log 26). -/
  | bytes (a b : Byte)
  /-- `h"..."`, the bytes in index order -/
  | hex (bs : List Byte)
  /-- a name bound earlier in the program -/
  | name (n : String)
deriving DecidableEq, Repr

/-- The suffix of COMBINE (R80); no suffix means `auto`. -/
inductive WidthSuffix where
  | auto | b1 | v16 | v32 | v64
deriving DecidableEq, Repr

/-- One assembly line (R80). -/
inductive AsmLine where
  | init (key nonce : BufOperand) (ctr : Int)
  | combine (suffix : Option WidthSuffix) (out inp : BufOperand) (count : Int)
  | dispose
deriving DecidableEq, Repr

/-- The buffers bound to names so far. -/
abbrev Bindings := List (String × Buf)

/-- The buffer an operand denotes, none for a name that is not bound. DESIGN CHOICE (log 26): `bytes(a..b)` with a > b,
for which R80 gives no bytes, is an empty present buffer. -/
def BufOperand.eval (env : Bindings) : BufOperand → Option Buf
  | .absent => some .absent
  | .zeros n => some (.present (List.replicate n 0))
  | .bytes a b => some (.present ((List.range (b.toNat + 1 - a.toNat)).map fun i => a + BitVec.ofNat 8 i))
  | .hex bs => some (.present bs)
  | .name n => env.lookup n

/-- The word X of a `<ctr>`: an unsigned word (R80). -/
def ctrWord (n : Int) : Option Word := if 0 ≤ n ∧ n < 2 ^ 32 then some (BitVec.ofInt 32 n) else none

/-- The word X of a `<count>`: a negative one in two's complement (R80). -/
def countWord (n : Int) : Option Word := if -2 ^ 31 ≤ n ∧ n < 2 ^ 32 then some (BitVec.ofInt 32 n) else none

/-- The command word of COMBINE with a suffix (R82). -/
def combineWord : Option WidthSuffix → Word
  | none => 0x00000002
  | some .auto => 0x00000002
  | some .b1 => 0x00000102
  | some .v16 => 0x00000202
  | some .v32 => 0x00000302
  | some .v64 => 0x00000402

/-- The transaction a line assembles to, none where an operand has no value (R80, R82). -/
def assemble (env : Bindings) : AsmLine → Option Transaction
  | .init key nonce ctr =>
    match key.eval env, nonce.eval env, ctrWord ctr with
    | some a, some b, some x => some ⟨0x00000001, a, b, x⟩
    | _, _, _ => none
  | .combine suffix out inp count =>
    match out.eval env, inp.eval env, countWord count with
    | some a, some b, some x => some ⟨combineWord suffix, a, b, x⟩
    | _, _, _ => none
  | .dispose => some ⟨0x00000003, .absent, .absent, 0⟩

end Sys2Proof.Machine
end

