-- ==== Sys2Proof/Machine/Text.lean ====
section
/-! DEFINITION. Machine/Text.lean: the HOST's text encoder, UTF-8 (spec 44_streaming.md R219). The encoding itself is
from general knowledge, as the spec says of it (G6, log 14). -/

namespace Sys2Proof.Machine

/-- A continuation byte holding the low six bits of `n`. -/
def utf8Tail (n : Nat) : Byte := BitVec.ofNat 8 (0x80 + n % 64)

/-- The one to four bytes of a scalar value. -/
def utf8EncodeScalar (n : Nat) : List Byte :=
  if n < 0x80 then [BitVec.ofNat 8 n]
  else if n < 0x800 then [BitVec.ofNat 8 (0xC0 + n / 64), utf8Tail n]
  else if n < 0x10000 then [BitVec.ofNat 8 (0xE0 + n / 4096), utf8Tail (n / 64), utf8Tail n]
  else [BitVec.ofNat 8 (0xF0 + n / 262144), utf8Tail (n / 4096), utf8Tail (n / 64), utf8Tail n]

/-- `utf8_encode` of R219. -/
def utf8Encode (text : List Char) : List Byte := text.flatMap fun c => utf8EncodeScalar c.toNat

/-- Whether a byte continues a scalar. -/
def utf8IsTail (b : Byte) : Bool := decide (0x80 ≤ b.toNat ∧ b.toNat < 0xC0)

/-- The scalar `n`, if it is one and its shortest form was used (`least` is the least value of the form used). -/
def utf8Scalar (least n : Nat) (rest : List Byte) : Option (Char × List Byte) :=
  if least ≤ n ∧ n.isValidChar then some (Char.ofNat n, rest) else none

/-- The first scalar of a byte string and the bytes after it. -/
def utf8Next (bs : List Byte) : Option (Char × List Byte) :=
  match bs with
  | [] => none
  | b0 :: r0 =>
    let n0 := b0.toNat
    if n0 < 0x80 then utf8Scalar 0 n0 r0
    else if n0 < 0xC0 then none
    else match r0 with
      | [] => none
      | b1 :: r1 =>
        if ¬utf8IsTail b1 then none
        else if n0 < 0xE0 then utf8Scalar 0x80 ((n0 - 0xC0) * 64 + (b1.toNat - 0x80)) r1
        else match r1 with
          | [] => none
          | b2 :: r2 =>
            if ¬utf8IsTail b2 then none
            else if n0 < 0xF0 then
              utf8Scalar 0x800 ((n0 - 0xE0) * 4096 + (b1.toNat - 0x80) * 64 + (b2.toNat - 0x80)) r2
            else match r2 with
              | [] => none
              | b3 :: r3 =>
                if ¬utf8IsTail b3 then none
                else utf8Scalar 0x10000 ((n0 - 0xF0) * 262144 + (b1.toNat - 0x80) * 4096
                  + (b2.toNat - 0x80) * 64 + (b3.toNat - 0x80)) r3

/-- Scalar after scalar, at most `fuel` of them. -/
def utf8DecodeFuel : Nat → List Byte → Option (List Char)
  | _, [] => some []
  | 0, _ :: _ => none
  | fuel + 1, b :: bs =>
    match utf8Next (b :: bs) with
    | none => none
    | some (c, rest) => (utf8DecodeFuel fuel rest).map (c :: ·)

/-- `utf8_decode` of R219: none where the bytes are not valid UTF-8. Each scalar takes at least one byte. -/
def utf8Decode (bs : List Byte) : Option (List Char) := utf8DecodeFuel bs.length bs

end Sys2Proof.Machine
end

