-- ==== Sys2Proof/Machine/HostOps.lean ====
section
/-! DEFINITION. Machine/HostOps.lean: the pseudo-operations that are one command each (spec 30_encoding.md R81,
44_streaming.md R217 to R220): HOST procedures over commands, adding no CORE state. The HOST issues each command at the
port itself; other agents' commands can take effect before and after it, never inside it (R221). -/

namespace Sys2Proof.Machine

/-- The bytes of a present buffer, none of an absent one. -/
def bufBytes : Buf → List Byte
  | .absent => []
  | .present bs => bs

/-- One command of a HOST procedure, with the response it gets (R10). DESIGN CHOICE (log 28): no reset is requested during
it, so it gets one. -/
def command (i : Instr) (s : State) : Result (State × Response) :=
  andThen (issue (encode i) s) fun s => .next (s, s.response.getD ⟨s.lastCode, .absent⟩)

/-- The count operand: `len` if given, else the input's length, else 0 (R217, R218, N27). `len` is a 32-bit word read as
X is (log 21). -/
def countOperand (inp : Buf) (len : Option Word) : Word := len.getD (BitVec.ofNat 32 (bufBytes inp).length)

/-- NEW key, nonce, ctr (R220). -/
def newCipher (key nonce : Buf) (ctr : Word) (s : State) : Result (State × Response) := command (.init key nonce ctr) s

/-- ENCRYPT out, in [, len] (R217). -/
def encryptBytes (out inp : Buf) (len : Option Word) (s : State) : Result (State × Response) :=
  command (.combine out inp (countOperand inp len)) s

/-- DECRYPT out, in [, len] (R217): the identical operation. -/
def decryptBytes (out inp : Buf) (len : Option Word) (s : State) : Result (State × Response) := encryptBytes out inp len s

/-- ENCRYPT_ALLOC in [, len] (R218): the output is allocated, max(n, 0) zero bytes. -/
def encryptAlloc (inp : Buf) (len : Option Word) (s : State) : Result (State × Response) :=
  command (.combine (.present (zeros (countOf (countOperand inp len)).toNat)) inp (countOperand inp len)) s

/-- DECRYPT_ALLOC in [, len] (R218): the identical operation. -/
def decryptAlloc (inp : Buf) (len : Option Word) (s : State) : Result (State × Response) := encryptAlloc inp len s

/-- ENCRYPT_TEXT s (R219). -/
def encryptText (text : List Char) (s : State) : Result (State × Response) :=
  encryptAlloc (.present (utf8Encode text)) none s

/-- What DECRYPT_TO_TEXT returns: text, or the code of the COMBINE that failed (R219). -/
inductive TextReply where
  | text (cs : List Char)
  | failed (code : Byte)
deriving DecidableEq, Repr

/-- DECRYPT_TO_TEXT c (R219): plaintext that is not UTF-8 is refused (I15). -/
def decryptToText (c : Buf) (s : State) : Result (State × TextReply) :=
  andThen (decryptAlloc c none s) fun (s, reply) =>
    if reply.code = Code.ok.byte then
      match utf8Decode (bufBytes reply.r) with
      | some cs => .next (s, .text cs)
      | none => .refused .invalidUtf8
    else .next (s, .failed reply.code)

end Sys2Proof.Machine
end

