-- ==== Sys2Proof/Machine/Stream.lean ====
section
/-! DEFINITION. Machine/Stream.lean: the streaming engine, a HOST procedure over COMBINE commands (spec 44_streaming.md
R210 to R216, R221), in its synchronous form (`encryptStream`) and its suspension-capable form (`resume`). The channels are
what they answer, as plain data (log 12). What can happen while a stream waits is other agents' commands only: that no
reset is taken there is the model's choice (log 28). -/

namespace Sys2Proof.Machine

/-- What a source answers to one read (R210): bytes, the empty list at the end of the input, or an I/O error. -/
inductive ReadAnswer where
  | bytes (bs : List Byte)
  | error (e : Nat)
deriving DecidableEq, Repr

/-- What a sink answers to one write (R210). -/
inductive WriteAnswer where
  | done
  | error (e : Nat)
deriving DecidableEq, Repr

/-- One read, and the other agents' commands the CORE performs before it answers (R221). DESIGN CHOICE (log 28): commands
only, no reset, though R280 lets one be taken there. -/
structure ReadTurn where
  others : List Transaction
  answer : ReadAnswer
deriving DecidableEq, Repr

/-- One write, and the other agents' commands the CORE performs before it answers (R221). DESIGN CHOICE (log 28): commands
only, no reset, as for a read. -/
structure WriteTurn where
  others : List Transaction
  answer : WriteAnswer
deriving DecidableEq, Repr

/-- How a stream ends (R210, R216): success, a code, or a channel's I/O error unchanged. -/
inductive Verdict where
  | succeeded
  | failed (code : Byte)
  | ioError (e : Nat)
deriving DecidableEq, Repr

/-- Where a stream stands: at its read, at its write of `n` bytes, or ended. -/
inductive Phase where
  | reading
  | writing (n : Nat)
  | ended (v : Verdict)
deriving DecidableEq, Repr

/-- A stream in progress: the CORE, the two chunk buffers, what the sink has consumed, and where it stands. -/
structure Task where
  core : State
  chunk : Nat
  inbuf : List Byte
  outbuf : List Byte
  sink : List Byte
  phase : Phase
deriving DecidableEq, Repr

/-- The other agents' commands, in the order the port accepts them (R60, R221). DESIGN CHOICE (log 28): no reset stands
among them. -/
def performOthers : List Transaction → State → Result State
  | [], s => .next s
  | t :: ts, s => andThen (issue t s) (performOthers ts)

/-- The checks before the first read, in the order of R210 and R215: the chunk size (R211), the lifecycle, the source,
the sink. -/
def streamStart (sourcePresent sinkPresent : Bool) (chunk : Int) (s : State) : Result Task :=
  if chunk < 1 ∨ (Config.maxBuf : Int) < chunk then .refused .chunkOutOfRange
  else
    let n := chunk.toNat
    let phase : Phase :=
      if ¬s.statusReady then .ended (.failed Code.useAfterDispose.byte)
      else if ¬sourcePresent then .ended (.failed Code.nullInput.byte)
      else if ¬sinkPresent then .ended (.failed Code.nullOutput.byte)
      else .reading
    .next ⟨s, n, zeros n, zeros n, [], phase⟩

/-- A read has answered (R210): end on an error or on zero bytes, else COMBINE the chunk and go to the write. The bytes of
the input chunk buffer past a short read keep earlier data (I20). -/
def onRead (a : ReadAnswer) (t : Task) : Result Task :=
  match a with
  | .error e => .next { t with phase := .ended (.ioError e) }
  | .bytes bs =>
    if t.chunk < bs.length then .refused .channelContract
    else if bs = [] then .next { t with phase := .ended .succeeded }
    else
      let inbuf := bs ++ t.inbuf.drop bs.length
      andThen (command (.combine (.present t.outbuf) (.present inbuf) (BitVec.ofNat 32 bs.length)) t.core)
        fun (core, reply) =>
          let t := { t with core, inbuf, outbuf := bufBytes reply.r }
          if reply.code = Code.ok.byte then .next { t with phase := .writing bs.length }
          else .next { t with phase := .ended (.failed reply.code) }

/-- A write of `n` bytes has answered (R210). -/
def onWrite (a : WriteAnswer) (n : Nat) (t : Task) : Result Task :=
  match a with
  | .error e => .next { t with phase := .ended (.ioError e) }
  | .done => .next { t with sink := t.sink ++ t.outbuf.take n, phase := .reading }

/-- Other agents' commands while the stream waits for a channel (R221). -/
def onOthers (ts : List Transaction) (t : Task) : Result Task :=
  andThen (performOthers ts t.core) fun core => .next { t with core }

/-- The loop of R210, run to its end. A channel with no answer left never answers (R216): the stream is stuck. -/
def streamLoop : List ReadTurn → List WriteTurn → Task → Result Task
  | [], _, _ => .fault .channelNeverAnswers
  | r :: reads, writes, t =>
    andThen (andThen (onOthers r.others t) (onRead r.answer)) fun t =>
      match t.phase, writes with
      | .writing n, w :: writes =>
        andThen (andThen (onOthers w.others t) (onWrite w.answer n)) fun t =>
          match t.phase with
          | .reading => streamLoop reads writes t
          | _ => .next t
      | .writing _, [] => .fault .channelNeverAnswers
      | _, _ => .next t

/-- ENCRYPT_STREAM sink, source [, chunk] (R210). An absent channel is `none`. -/
def encryptStream (sink : Option (List WriteTurn)) (source : Option (List ReadTurn)) (chunk : Int) (s : State) :
    Result Task :=
  andThen (streamStart source.isSome sink.isSome chunk s) fun t =>
    match t.phase with
    | .reading => streamLoop (source.getD []) (sink.getD []) t
    | _ => .next t

/-- DECRYPT_STREAM sink, source [, chunk] (R210): the identical operation. -/
def decryptStream (sink : Option (List WriteTurn)) (source : Option (List ReadTurn)) (chunk : Int) (s : State) :
    Result Task :=
  encryptStream sink source chunk s

/-- ENCRYPT_STREAM with the default chunk size `P_CHUNK_DEFAULT` (R9, R210). -/
def encryptStreamDefault (sink : Option (List WriteTurn)) (source : Option (List ReadTurn)) (s : State) : Result Task :=
  encryptStream sink source Config.chunkDefault s

/-- What can happen while an _ASYNC stream is suspended (R214, R221). DESIGN CHOICE (log 28): no event is a reset, though
R280 lets one be taken there. -/
inductive Event where
  | others (ts : List Transaction)
  | read (a : ReadAnswer)
  | wrote (a : WriteAnswer)
deriving DecidableEq, Repr

/-- ENCRYPT_STREAM_ASYNC and DECRYPT_STREAM_ASYNC (R214): the stream is suspended only at its read and its write, and
each event resumes it up to the next one. What happens after it has ended is no longer the stream's. -/
def resume (e : Event) (t : Task) : Result Task :=
  match t.phase, e with
  | .ended _, _ => .next t
  | .reading, .others ts => onOthers ts t
  | .writing _, .others ts => onOthers ts t
  | .reading, .read a => onRead a t
  | .writing n, .wrote a => onWrite a n t
  | .reading, .wrote _ => .refused .channelContract
  | .writing _, .read _ => .refused .channelContract

/-- A suspended stream resumed by one event after another. -/
def resumeAll : List Event → Task → Result Task
  | [], t => .next t
  | e :: es, t => andThen (resume e t) (resumeAll es)

/-- The events of the channels' answers, a read and a write in turn. -/
def eventsOf : List ReadTurn → List WriteTurn → List Event
  | [], _ => []
  | r :: _, [] => [.others r.others, .read r.answer]
  | r :: reads, w :: writes =>
    .others r.others :: .read r.answer :: .others w.others :: .wrote w.answer :: eventsOf reads writes

end Sys2Proof.Machine
end

