-- ==== Sys2Proof/Machine/System.lean ====
section
/-! DEFINITION. Machine/System.lean: a system of `P_NCORES` COREs that share no state (spec 20_memory.md R61,
60_exceptions.md R262). -/

namespace Sys2Proof.Machine

/-- The COREs of a system. No command sees which one it runs on (R262). -/
structure System where
  cores : List State
deriving DecidableEq, Repr

/-- CORE `i` right after reset (R32, R262). What R32 and R280 leave open it draws from values of its own, so that the
open values of two COREs need not agree: the model's choice (log 27). -/
def State.resetCore (i : Nat) : State :=
  { State.reset with hidden := Config.freeHidden ⟨i, 0⟩, draws := ⟨i, 1⟩ }

/-- Every CORE starts DISPOSED at reset (R262); there is at least one (R9, log 16). CORE 0 is the one of `State.reset`.
The contents of W and K and the order of a reset during a command are open for each CORE apart; `P_AUTO_WIDTH` and
`P_HIDDEN_CLEAR` are one value for all of them: both the model's choice (log 27). -/
def System.reset : System := ⟨(List.range (Config.extraCores + 1)).map State.resetCore⟩

/-- A step of CORE `i`, which no other CORE sees (R61). -/
def System.stepCore (sys : System) (i : Fin sys.cores.length) : Result System :=
  andThen (step sys.cores[i]) fun s => .next ⟨sys.cores.set i s⟩

end Sys2Proof.Machine
end

