-- ==== Sys2Proof/Safety.lean ====
section
/-! DEFINITION. Safety.lean: what the claims call a good state and a run. -/

namespace Sys2Proof.Machine

/-- The five COMBINE commands on the same operands, one for each WID of 30_encoding.md R72. -/
def combineForms (out inp : Buf) (x : Word) : List Instr :=
  [.combine out inp x, .combineB1 out inp x, .combineV16 out inp x, .combineV32 out inp x, .combineV64 out inp x]

/-- Two states that differ at most in W, K and the model's own draw counter (10_state.md R33). -/
def State.sameButHidden (s t : State) : Prop := t = { s with hidden := t.hidden, draws := t.draws }

/-- What holds of a CORE between commands, by the spec's own prose. -/
structure State.Inv (s : State) : Prop where
  /-- Whenever LIFE = DISPOSED, every word of S is 0 (10_state.md R25). -/
  zeroWhenDisposed : s.life = .disposed → s.words = zeroWords
  /-- While LIFE = READY, S[0..3] is SIGMA (10_state.md R21). -/
  sigmaWhenReady : s.life = .ready → ∀ i : Fin 4, s.words[i.val] = sigma[i]
  /-- LAST_CODE is a code in use: 0x0A .. 0xFF are never returned (60_exceptions.md R251). -/
  codeInUse : s.lastCode.toNat ≤ 9

/-- The states a CORE can be in, whatever requests the HOST agents post and whenever they post them
(00_scope.md R10, 20_memory.md R60). -/
inductive Reachable : State → Prop where
  | reset : Reachable State.reset
  | post {s : State} (r : Request) : Reachable s → Reachable { s with queue := s.queue ++ [r] }
  | step {s t : State} : Reachable s → Machine.step s = .next t → Reachable t

end Sys2Proof.Machine
end

