-- ==== Sys2Proof/Certificates/Slice0/Obligations.lean ====
section
/-! DEFINITION. Certificates/Slice0/Obligations.lean: the statements for the provers. Each docstring names the rule of
spec/ it formalises. The count of a COMBINE is written `x.toInt`, Lean's own two's complement reading of a bit vector. -/

open Sys2Proof Sys2Proof.Machine

/-! ## Reset, status and the port -/

/-- R32: reset gives S = 0, LIFE = DISPOSED, LAST_CODE = 0x00, STATUS = 0, and CAP at its constant, whose AUTO_WID is the
code of `P_AUTO_WIDTH`. (W and K are unspecified there: nothing is stated of them.) -/
def Obligations.ResetState : Prop :=
  (∀ i, (h : i < 16) → State.reset.words[i] = 0) ∧
  State.reset.life = .disposed ∧
  State.reset.lastCode = 0x00 ∧
  State.reset.status = 0x00000000 ∧
  State.reset.cap.toNat = 0xF + 16 * Config.autoWidth.wid

/-- R26: bit 0 of STATUS is LIFE, bits 15:8 are LAST_CODE, bits 7:1 and 31:16 read 0; at reset all of it is 0. -/
def Obligations.StatusReadsLifeAndLastCode : Prop :=
  (∀ s : State,
    (s.status.getLsbD 0 = true ↔ s.life = .ready) ∧
    s.status.extractLsb' 8 8 = s.lastCode ∧
    s.status.extractLsb' 1 7 = 0 ∧
    s.status.extractLsb' 16 16 = 0) ∧
  State.reset.status = 0

/-- R28: the fields of CAP, whose AUTO_WID is at reset the code of `P_AUTO_WIDTH`; no step and no reset changes it; and it
has no effect on what a command answers or leaves in S, LIFE and LAST_CODE. -/
def Obligations.CapIsConstantAndWithoutEffect : Prop :=
  (∀ s : State, (s.cap.extractLsb' 0 4 = 0b1111) ∧ (s.cap.extractLsb' 4 3).toNat = s.capAuto.wid ∧
    1 ≤ s.capAuto.wid ∧ s.capAuto.wid ≤ 4 ∧ s.cap.extractLsb' 7 25 = 0) ∧
  State.reset.capAuto = Config.autoWidth ∧
  (∀ s t : State, step s = .next t → t.cap = s.cap) ∧
  (∀ s : State, s.takeReset.cap = s.cap) ∧
  (∀ (t : Transaction) (s u : State) (w : LaneWidth), issue t s = .next u →
    ∃ v, issue t { s with capAuto := w } = .next v ∧
      v.response = u.response ∧ v.words = u.words ∧ v.life = u.life ∧ v.lastCode = u.lastCode)

/-- R10, R60: when the next request at the port is an admissible command whose word decodes to `i`, a step runs exactly
`i`, in the state with that request taken off the port. -/
def Obligations.StepRunsDecodedCommand : Prop :=
  ∀ (s : State) (t : Transaction) (rest : List Request) (i : Instr),
    s.queue = .command t :: rest → t.wf = true → decode t = .ok i → step s = exec i { s with queue := rest }

/-- R281 (log 3): with nothing at its port the CORE waits, unchanged. -/
def Obligations.EmptyPortWaits : Prop :=
  ∀ s : State, s.queue = [] → step s = .next s

/-- R77: no transaction with a buffer longer than `P_MAX_BUF` = 2^31 - 1 is admitted, whatever its command word; the model
stops with a refusal of its own name (log 8). -/
def Obligations.OverlongBufferIsRefused : Prop :=
  ∀ (s : State) (t : Transaction) (rest : List Request) (bytes : List Byte),
    s.queue = .command t :: rest → 2 ^ 31 - 1 < bytes.length → (t.a = .present bytes ∨ t.b = .present bytes) →
    step s = .refused .bufferTooLong

/-- R280, I12: a reset sets S, LIFE and LAST_CODE to their reset values and leaves CAP and the requests still at the
port (log 1). Requested during a command it takes effect before it (the command is not performed and gets no response)
or after it (the command completes and its response is delivered): which one is a free value (log 4). -/
def Obligations.ResetIsTakenBetweenCommands : Prop :=
  (∀ (s : State) (rest : List Request), s.queue = .reset :: rest →
    ∃ t, step s = .next t ∧ t.words = State.reset.words ∧ t.life = State.reset.life ∧
      t.lastCode = State.reset.lastCode ∧ t.cap = s.cap ∧ t.queue = rest) ∧
  (∀ (s : State) (t : Transaction) (rest : List Request), s.queue = .resetDuring t :: rest → t.wf = true →
    ∃ u v d, step s = .next u ∧ issue t { s with queue := rest, draws := d } = .next v ∧
      u.words = State.reset.words ∧ u.life = State.reset.life ∧ u.lastCode = State.reset.lastCode ∧ u.cap = s.cap ∧
      u.queue = rest ∧ u.response = if Config.freeChoice s.draws then none else v.response)

/-! ## Encoding -/

/-- R82: the seven legal words, each with its command and its operands in the roles of R75. -/
def Obligations.LegalWordsDecode : Prop :=
  ∀ (a b : Buf) (x : Word),
    decode ⟨0x00000001, a, b, x⟩ = .ok (.init a b x) ∧
    decode ⟨0x00000002, a, b, x⟩ = .ok (.combine a b x) ∧
    decode ⟨0x00000102, a, b, x⟩ = .ok (.combineB1 a b x) ∧
    decode ⟨0x00000202, a, b, x⟩ = .ok (.combineV16 a b x) ∧
    decode ⟨0x00000302, a, b, x⟩ = .ok (.combineV32 a b x) ∧
    decode ⟨0x00000402, a, b, x⟩ = .ok (.combineV64 a b x) ∧
    decode ⟨0x00000003, a, b, x⟩ = .ok .dispose

/-- R74, R75: decoding an encoded command gives it back, every operand at every value; encoding keeps admissibility; and
of all transactions with a 2^32-valued command word, the ones that decode to a command are the encoding of that command
(DISPOSE ignores its operands, so only the word counts there). -/
def Obligations.DecodeInvertsEncode : Prop :=
  (∀ i : Instr, decode (encode i) = .ok i ∧ (encode i).wf = i.wf) ∧
  (∀ (t : Transaction) (i : Instr), decode t = .ok i → t.cmd = (encode i).cmd ∧ (i ≠ .dispose → encode i = t))

/-- R74, R78: exactly seven of the 2^32 command words are legal, each the word of its command, with the operands in the
roles of R75; every other word gets code 0x09, the response buffer is operand A as presented, and nothing but LAST_CODE
changes. -/
def Obligations.EveryOtherWordIsIllegal : Prop :=
  (∀ (t : Transaction) (i : Instr), decode t = .ok i ↔
    (t.cmd = 0x00000001 ∧ i = .init t.a t.b t.x) ∨ (t.cmd = 0x00000003 ∧ i = .dispose) ∨
    (t.cmd = 0x00000002 ∧ i = .combine t.a t.b t.x) ∨ (t.cmd = 0x00000102 ∧ i = .combineB1 t.a t.b t.x) ∨
    (t.cmd = 0x00000202 ∧ i = .combineV16 t.a t.b t.x) ∨ (t.cmd = 0x00000302 ∧ i = .combineV32 t.a t.b t.x) ∨
    (t.cmd = 0x00000402 ∧ i = .combineV64 t.a t.b t.x)) ∧
  (∀ t : Transaction, t.wf = true →
    t.cmd ∉ [0x00000001, 0x00000003, 0x00000002, 0x00000102, 0x00000202, 0x00000302, (0x00000402 : Word)] →
    ∀ s : State, issue t s = .next { s with lastCode := 0x09, response := some ⟨0x09, t.a⟩ })

/-- R80, R82: every assembly line whose operands have values assembles to a transaction that decodes to its command with
those operands: the suffixes of COMBINE to their lane widths, no suffix to AUTO, and a count, negative ones included, to a
word that reads as it in two's complement. (Lines as abstract syntax, and which integers a line may hold: log 26.) -/
def Obligations.AssembledLinesDecode : Prop :=
  ∀ (env : Bindings) (p q : BufOperand) (a b : Buf) (n : Int), p.eval env = some a → q.eval env = some b →
    (0 ≤ n → n < 2 ^ 32 → ∃ t x, assemble env (.init p q n) = some t ∧ decode t = .ok (.init a b x) ∧ (x.toNat : Int) = n) ∧
    (-2 ^ 31 ≤ n → n < 2 ^ 31 → ∀ r ∈ [(none, Instr.combine), (some WidthSuffix.auto, Instr.combine),
      (some .b1, Instr.combineB1), (some .v16, Instr.combineV16), (some .v32, Instr.combineV32),
      (some .v64, Instr.combineV64)],
      ∃ t x, assemble env (.combine r.1 p q n) = some t ∧ decode t = .ok (r.2 a b x) ∧ x.toInt = n) ∧
    (∃ t, assemble env .dispose = some t ∧ decode t = .ok .dispose)

/-! ## Word primitives and serialization -/

/-- R100, R101: addition is modulo 2^32 and exclusive-or is bitwise. -/
def Obligations.AddWrapsAndXorIsBitwise : Prop :=
  ∀ a b : Word, (add32 a b).toNat = (a.toNat + b.toNat) % 2 ^ 32 ∧
    ∀ i, i < 32 → (xor32 a b).getLsbD i = (a.getLsbD i != b.getLsbD i)

/-- R102, whose bit-level definition the spec marks as from general knowledge (G2, log 9): bit i of `rotl32(x, n)` is
bit (i - n) mod 32 of x, for every amount 0 .. 31; rotating by n and then by 32 - n gives x back; zero and all ones are
fixed. -/
def Obligations.RotateLeftMovesBits : Prop :=
  ∀ (x : Word) (n : Nat), n ≤ 31 →
    (∀ i, i < 32 → (rotl32 x n).getLsbD i = x.getLsbD (((i : Int) - n) % 32).toNat) ∧
    (1 ≤ n → rotl32 (rotl32 x n) (32 - n) = x) ∧
    rotl32 0 n = 0 ∧ rotl32 0xFFFFFFFF n = 0xFFFFFFFF

/-- R103, R104, whose byte order the spec marks as from general knowledge (G3, log 9): the byte at the lowest index is
bits 7:0; packing and unpacking are inverse. -/
def Obligations.PackAndUnpackAreInverse : Prop :=
  (∀ (buf : List Byte) (i k j : Nat), i + 3 < buf.length → k < 4 → j < 8 →
    (unpackLe buf i).getLsbD (8 * k + j) = (byteAt buf (i + k)).getLsbD j) ∧
  (∀ w : Word, unpackLe (packLe w) 0 = w) ∧
  (∀ (buf : List Byte) (i : Nat), i + 3 < buf.length → packLe (unpackLe buf i) = (buf.drop i).take 4)

/-- R105: bytes 4i .. 4i+3 of the serialization are `pack_le` of word i, in order. -/
def Obligations.SerializeConcatenatesPackedWords : Prop :=
  ∀ v : Words, (serialize v).toList = v.toList.flatMap packLe

/-! ## The block function -/

/-- R151: on four distinct indices of W, the quarter-round is the eight assignments of the rule, in order, each reading
what the ones before it wrote; four zero words stay zero. -/
def Obligations.QuarterRoundIsTheEightAssignments : Prop :=
  (∀ (w : Words) (a b c d : Fin 16), [a, b, c, d].Nodup →
    let w1 := w.set a (w[a] + w[b])
    let w2 := w1.set d (rotl32 (w1[d] ^^^ w1[a]) 16)
    let w3 := w2.set c (w2[c] + w2[d])
    let w4 := w3.set b (rotl32 (w3[b] ^^^ w3[c]) 12)
    let w5 := w4.set a (w4[a] + w4[b])
    let w6 := w5.set d (rotl32 (w5[d] ^^^ w5[a]) 8)
    let w7 := w6.set c (w6[c] + w6[d])
    qr a b c d w = w7.set b (rotl32 (w7[b] ^^^ w7[c]) 7)) ∧
  (∀ (w : Words) (a b c d : Fin 16), w[a] = 0 → w[b] = 0 → w[c] = 0 → w[d] = 0 → qr a b c d w = w)

/-- R151: the quarter-round loses nothing: it is a bijection on its four words (a remark the spec marks as general
knowledge, G4). -/
def Obligations.QuarterRoundIsBijective : Prop := Function.Bijective quarterRound

/-- R152, R153: the four quarter-rounds of a column round, and of a diagonal round, touch disjoint words, so any order of
them gives the same result. -/
def Obligations.RoundsDoNotDependOnOrder : Prop :=
  ∀ (w : Words) (l : List (Fin 16 × Fin 16 × Fin 16 × Fin 16)),
    (l.Perm [(0, 4, 8, 12), (1, 5, 9, 13), (2, 6, 10, 14), (3, 7, 11, 15)] →
      l.foldl (fun w q => qr q.1 q.2.1 q.2.2.1 q.2.2.2 w) w = columnRound w) ∧
    (l.Perm [(0, 5, 10, 15), (1, 6, 11, 12), (2, 7, 8, 13), (3, 4, 9, 14)] →
      l.foldl (fun w q => qr q.1 q.2.1 q.2.2.1 q.2.2.2 w) w = diagonalRound w)

/-- R155 to R160: the block step copies S, applies ten times the eight quarter-rounds of R160 in its order, adds the
original S and serializes, bytes 4i .. 4i+3 being word i, least significant byte first; and it writes only S[12] and
S[13]: S[12] is incremented, S[13] is incremented exactly when S[12] wraps to 0, with no carry further. -/
def Obligations.BlockStepWritesOnlyTheCounter : Prop :=
  ∀ s : Words,
    (∀ i, (h : i < 16) → ∀ b, b < 4 → ∀ hb : 4 * i + b < 64,
      (block s).1[4 * i + b] = (((List.range 10).foldl (fun w _ =>
        [((0 : Fin 16), (4 : Fin 16), (8 : Fin 16), (12 : Fin 16)), (1, 5, 9, 13), (2, 6, 10, 14), (3, 7, 11, 15),
          (0, 5, 10, 15), (1, 6, 11, 12), (2, 7, 8, 13), (3, 4, 9, 14)].foldl
          (fun w q => qr q.1 q.2.1 q.2.2.1 q.2.2.2 w) w) s)[i] + s[i]).extractLsb' (8 * b) 8) ∧
    (block s).2[12] = s[12] + 1 ∧
    (block s).2[13] = (if s[12] + 1 = 0 then s[13] + 1 else s[13]) ∧
    ∀ i, (h : i < 16) → i ≠ 12 → i ≠ 13 → (block s).2[i] = s[i]

/-- R161: n block steps map C to (C + n) mod 2^64 and leave every other word; after INIT with counter c0 and nonce low
word n0, the n-th block step uses C = (n0 * 2^32 + c0 + n) mod 2^64. -/
def Obligations.CounterPairIsA64BitCounter : Prop :=
  (∀ (s : Words) (n : Nat),
    ((fun w => (block w).2)^[n] s)[13].toNat * 2 ^ 32 + ((fun w => (block w).2)^[n] s)[12].toNat =
      (s[13].toNat * 2 ^ 32 + s[12].toNat + n) % 2 ^ 64 ∧
    ∀ i, (h : i < 16) → i ≠ 12 → i ≠ 13 → ((fun w => (block w).2)^[n] s)[i] = s[i]) ∧
  (∀ (key nonce : List Byte) (ctr : Word) (s : State) (n : Nat), key.length = 32 → nonce.length = 12 →
    ∃ t, exec (.init (.present key) (.present nonce) ctr) s = .next t ∧
      counterPair ((fun w => (block w).2)^[n] t.words) =
        ((unpackLe nonce 0).toNat * 2 ^ 32 + ctr.toNat + n) % 2 ^ 64)

/-- R162: from counter 0xFFFFFFFE the carry into S[13] happens at the second block step and at no other of the next 2^32:
S[13] is as it was for n < 2, and one more for every n with 2 <= n < 2 + 2^32. -/
def Obligations.CarryHappensOnceFrom0xFFFFFFFE : Prop :=
  ∀ (s : Words) (n : Nat), s[12] = 0xFFFFFFFE →
    (n < 2 → ((fun w => (block w).2)^[n] s)[13] = s[13]) ∧
    (2 ≤ n → n < 2 + 2 ^ 32 → ((fun w => (block w).2)^[n] s)[13] = s[13] + 1)

/-- R163: two block steps of one lifetime start from the same 16 words exactly when their counter pairs are equal, which
is exactly when they are a multiple of 2^64 steps apart. -/
def Obligations.BlockInputsRepeatOnlyAfter2To64 : Prop :=
  ∀ (s : Words) (m n : Nat),
    ((fun w => (block w).2)^[m] s = (fun w => (block w).2)^[n] s ↔
      counterPair ((fun w => (block w).2)^[m] s) = counterPair ((fun w => (block w).2)^[n] s)) ∧
    ((fun w => (block w).2)^[m] s = (fun w => (block w).2)^[n] s ↔ m % 2 ^ 64 = n % 2 ^ 64)

/-! ## INIT -/

/-- R132, with the SIGMA of R131, a value the spec marks as from general knowledge (G1, log 9): a key of 32 bytes and a
nonce of 12 give code 0x00 in every state: S[0..3] = SIGMA, S[4..11] and S[13..15] the little-endian words of key and
nonce, S[12] = X, LIFE = READY; nothing else of the state changes. -/
def Obligations.InitLoadsKeyCounterAndNonce : Prop :=
  ∀ (key nonce : List Byte) (ctr : Word) (s : State), key.length = 32 → nonce.length = 12 →
    exec (.init (.present key) (.present nonce) ctr) s = .next { s with
      words := #v[0x61707865, 0x3320646e, 0x79622d32, 0x6b206574,
        unpackLe key 0, unpackLe key 4, unpackLe key 8, unpackLe key 12,
        unpackLe key 16, unpackLe key 20, unpackLe key 24, unpackLe key 28,
        ctr, unpackLe nonce 0, unpackLe nonce 4, unpackLe nonce 8]
      life := .ready
      lastCode := 0x00
      response := some ⟨0x00, .absent⟩ }

/-- R130, R134: in every state, INIT fails with 0x02 when the key is absent, else 0x01 when its length is not 32, else
0x03 when the nonce is absent or its length is not 12; S is then all 0, LIFE = DISPOSED, and nothing else changes but
LAST_CODE and the response. -/
def Obligations.FailedInitZeroesEverything : Prop :=
  ∀ (nonce : Buf) (ctr : Word) (s : State),
    (exec (.init .absent nonce ctr) s = .next { s with
      words := Vector.replicate 16 0, life := .disposed, lastCode := 0x02, response := some ⟨0x02, .absent⟩ }) ∧
    (∀ key : List Byte, key.length ≠ 32 → exec (.init (.present key) nonce ctr) s = .next { s with
      words := Vector.replicate 16 0, life := .disposed, lastCode := 0x01, response := some ⟨0x01, .absent⟩ }) ∧
    (∀ key : List Byte, key.length = 32 → (∀ n, nonce = .present n → n.length ≠ 12) →
      exec (.init (.present key) nonce ctr) s = .next { s with
        words := Vector.replicate 16 0, life := .disposed, lastCode := 0x03, response := some ⟨0x03, .absent⟩ })

/-- R133: INIT runs in either lifecycle state, and what it leaves and answers does not depend on the cipher that was live
before: no word of the old one survives, whether it succeeds or fails. -/
def Obligations.InitForgetsTheOldCipher : Prop :=
  ∀ (key nonce : Buf) (ctr : Word) (s s' : State),
    ∃ t t', exec (.init key nonce ctr) s = .next t ∧ exec (.init key nonce ctr) s' = .next t' ∧
      t.words = t'.words ∧ t.life = t'.life ∧ t.lastCode = t'.lastCode ∧ t.response = t'.response

/-! ## COMBINE -/

/-- R180 to R186: when the CORE is READY, both buffers are present, 0 <= count <= len(input) and count <= len(output),
each of the five COMBINE forms answers code 0x00 and a buffer of the output's length whose byte p is
`B[p] XOR KS(C0 + p / 64)[p % 64]` for p < count and A[p] from count on; S has made one block step per block begun; LIFE,
CAP and the port are unchanged. -/
def Obligations.CombineXorsKeystream : Prop :=
  ∀ (out inp : List Byte) (x : Word) (n : Nat) (s : State), s.life = .ready → x.toInt = n → n ≤ inp.length →
    n ≤ out.length → ∀ i ∈ combineForms (.present out) (.present inp) x,
      ∃ t r, exec i s = .next t ∧ t.response = some ⟨0x00, .present r⟩ ∧ t.lastCode = 0x00 ∧
        r.length = out.length ∧
        (∀ p, (hp : p < inp.length) → p < n → r[p]? = some (inp[p] ^^^
          (keystream (withCounter s.words (counterPair s.words + p / 64)))[p % 64])) ∧
        (∀ p, n ≤ p → r[p]? = out[p]?) ∧
        counterPair t.words = (counterPair s.words + (n + 63) / 64) % 2 ^ 64 ∧
        (∀ j, (h : j < 16) → j ≠ 12 → j ≠ 13 → t.words[j] = s.words[j]) ∧
        t.life = .ready ∧ t.cap = s.cap ∧ t.queue = s.queue

/-- R185: whatever the state and operands, a COMBINE that answers 0x00 has made exactly ceil(count / 64) block steps, and
one that answers another code has made none. -/
def Obligations.CombineAdvancesCounterPerBlock : Prop :=
  ∀ (out inp : Buf) (x : Word) (s t : State), ∀ i ∈ combineForms out inp x, exec i s = .next t →
    (t.lastCode = 0x00 → ∃ n : Nat, x.toInt = n ∧ t.words = (fun w => (block w).2)^[(n + 63) / 64] s.words ∧
      counterPair t.words = (counterPair s.words + (n + 63) / 64) % 2 ^ 64) ∧
    (t.lastCode ≠ 0x00 → t.words = s.words)

/-- R289: every COMBINE of admissible buffers ends after at most ceil((2^31 - 1) / 64) block steps. -/
def Obligations.CombineIsBounded : Prop :=
  ∀ (out inp : Buf) (x : Word) (s t : State), ∀ i ∈ combineForms out inp x, i.wf = true → exec i s = .next t →
    ∃ n, n ≤ (2 ^ 31 - 1 + 63) / 64 ∧ t.words = (fun w => (block w).2)^[n] s.words

/-- R254, R251: the code of a COMBINE, by the first check it fails: lifecycle, input absent, output absent, count negative
or more than the input, output too small. Each leaves all but LAST_CODE and the response, whose buffer is the output as
presented. -/
def Obligations.CombineErrorsInPriorityOrder : Prop :=
  ∀ (out inp : Buf) (x : Word) (s : State), ∀ i ∈ combineForms out inp x,
    (s.life = .disposed → exec i s = .next { s with lastCode := 0x08, response := some ⟨0x08, out⟩ }) ∧
    (s.life = .ready → inp = .absent → exec i s = .next { s with lastCode := 0x04, response := some ⟨0x04, out⟩ }) ∧
    (s.life = .ready → inp ≠ .absent → out = .absent →
      exec i s = .next { s with lastCode := 0x05, response := some ⟨0x05, out⟩ }) ∧
    (∀ a b, s.life = .ready → out = .present a → inp = .present b → (x.toInt < 0 ∨ (b.length : Int) < x.toInt) →
      exec i s = .next { s with lastCode := 0x06, response := some ⟨0x06, out⟩ }) ∧
    (∀ a b, s.life = .ready → out = .present a → inp = .present b → 0 ≤ x.toInt → x.toInt ≤ b.length →
      (a.length : Int) < x.toInt → exec i s = .next { s with lastCode := 0x07, response := some ⟨0x07, out⟩ })

/-- R192: a COMBINE either answers 0x00 with all count bytes and the counter advanced, or answers another code with the
output buffer unchanged and S, LIFE, CAP, W and K as they were. -/
def Obligations.CombineIsAllOrNothing : Prop :=
  ∀ (out inp : Buf) (x : Word) (s t : State), ∀ i ∈ combineForms out inp x, exec i s = .next t →
    (∃ (a b r : List Byte) (n : Nat), out = .present a ∧ inp = .present b ∧ x.toInt = n ∧ n ≤ b.length ∧ n ≤ a.length ∧
      t.response = some ⟨0x00, .present r⟩ ∧
      (∀ p, (hp : p < b.length) → p < n → r[p]? = some (b[p] ^^^ keyByte s.words p)) ∧
      counterPair t.words = (counterPair s.words + (n + 63) / 64) % 2 ^ 64) ∨
    (∃ c, c ≠ 0x00 ∧ t = { s with lastCode := c, response := some ⟨c, out⟩ })

/-- R190: for every state and operands, the response, the new S, LIFE and LAST_CODE are the same for WID = AUTO, B1, V16,
V32 and V64, on success and on failure. -/
def Obligations.LaneWidthHasNoEffect : Prop :=
  ∀ (out inp : Buf) (x : Word) (s : State), ∀ i ∈ combineForms out inp x, ∀ j ∈ combineForms out inp x,
    ∃ t u, exec i s = .next t ∧ exec j s = .next u ∧
      t.response = u.response ∧ t.words = u.words ∧ t.life = u.life ∧ t.lastCode = u.lastCode

/-- R193: INIT and COMBINE of P, then INIT with the same key, nonce and counter (in any state) and COMBINE of the
ciphertext, gives P back in the first n bytes, at any pair of lane widths. -/
def Obligations.EncryptingTwiceGivesThePlaintext : Prop :=
  ∀ (key nonce out out' plain : List Byte) (ctr x : Word) (n : Nat) (s s' : State),
    key.length = 32 → nonce.length = 12 → x.toInt = n → n ≤ plain.length → n ≤ out.length → n ≤ out'.length →
    ∀ i ∈ combineForms (.present out) (.present plain) x, ∃ s1 s2 cipher,
      exec (.init (.present key) (.present nonce) ctr) s = .next s1 ∧ exec i s1 = .next s2 ∧
      s2.response = some ⟨0x00, .present cipher⟩ ∧
      ∀ j ∈ combineForms (.present out') (.present cipher) x, ∃ s3 s4 r,
        exec (.init (.present key) (.present nonce) ctr) s' = .next s3 ∧ exec j s3 = .next s4 ∧
        s4.response = some ⟨0x00, .present r⟩ ∧ r.take n = plain.take n

/-- R187: two COMBINEs of n1 and n2 bytes against one of n1 + n2 over the concatenated input. Byte q of the second XORs
byte q % 64 of block C0 + ceil(n1 / 64) + q / 64 (the rest of the first command's tail block is never used); the bytes are
those of the single command when n1 % 64 = 0 or n2 = 0; the counters end equal exactly when
ceil(n1 / 64) + ceil(n2 / 64) = ceil((n1 + n2) / 64). -/
def Obligations.SplittingACombine : Prop :=
  ∀ (b1 b2 o1 o2 o : List Byte) (x1 x2 x : Word) (s : State), s.life = .ready →
    x1.toInt = b1.length → x2.toInt = b2.length → x.toInt = (b1.length + b2.length : Nat) →
    o1.length = b1.length → o2.length = b2.length → o.length = b1.length + b2.length →
    ∀ i1 ∈ combineForms (.present o1) (.present b1) x1, ∀ i2 ∈ combineForms (.present o2) (.present b2) x2,
    ∀ i ∈ combineForms (.present o) (.present (b1 ++ b2)) x,
      ∃ s1 s2 t r1 r2 r, exec i1 s = .next s1 ∧ exec i2 s1 = .next s2 ∧ exec i s = .next t ∧
        s1.response = some ⟨0x00, .present r1⟩ ∧ s2.response = some ⟨0x00, .present r2⟩ ∧
        t.response = some ⟨0x00, .present r⟩ ∧
        (∀ q, (hq : q < b2.length) → r2[q]? = some (b2[q] ^^^ (keystream (withCounter s.words
          (counterPair s.words + (b1.length + 63) / 64 + q / 64)))[q % 64])) ∧
        (b1.length % 64 = 0 ∨ b2.length = 0 → r = r1 ++ r2) ∧
        (s2.words = t.words ↔ (b1.length + 63) / 64 + (b2.length + 63) / 64 = (b1.length + b2.length + 63) / 64)

/-- R194: count = 0 succeeds once the CORE is READY and both buffers are present: no block step, no byte written, nothing
changed but LAST_CODE, and R = A. -/
def Obligations.CombineOfNothing : Prop :=
  ∀ (out inp : List Byte) (s : State), s.life = .ready → ∀ i ∈ combineForms (.present out) (.present inp) 0,
    exec i s = .next { s with lastCode := 0x00, response := some ⟨0x00, .present out⟩ }

/-- R195: what a COMBINE answers and leaves is a function of S, LIFE, A, B and X alone: two states that agree on S and
LIFE (whatever LAST_CODE, CAP, W, K and the port hold) answer alike, at any lane widths. -/
def Obligations.CombineIsDeterminedByStateAndOperands : Prop :=
  ∀ (out inp : Buf) (x : Word) (s s' : State), s.words = s'.words → s.life = s'.life →
    ∀ i ∈ combineForms out inp x, ∀ j ∈ combineForms out inp x,
      ∃ t t', exec i s = .next t ∧ exec j s' = .next t' ∧
        t.response = t'.response ∧ t.words = t'.words ∧ t.life = t'.life ∧ t.lastCode = t'.lastCode

/-- R233: on a DISPOSED CORE every COMBINE answers 0x08 with the output unchanged, whatever its operands; and only an INIT
that answers 0x00 makes the CORE READY. -/
def Obligations.OnlyInitEndsDisposal : Prop :=
  ∀ s : State, s.life = .disposed →
    (∀ (out inp : Buf) (x : Word), ∀ i ∈ combineForms out inp x,
      exec i s = .next { s with lastCode := 0x08, response := some ⟨0x08, out⟩ }) ∧
    (∀ (t : Transaction) (u : State), issue t s = .next u → u.life = .ready →
      u.lastCode = 0x00 ∧ ∃ key nonce ctr, decode t = .ok (.init key nonce ctr))

/-! ## DISPOSE and the lifecycle -/

/-- R230: DISPOSE on a READY CORE zeroes S and enters DISPOSED; on a DISPOSED one it changes no state but LAST_CODE; both
answer 0x00 with no buffer. -/
def Obligations.DisposeZeroesState : Prop :=
  ∀ s : State,
    (s.life = .ready → exec .dispose s = .next { s with
      words := Vector.replicate 16 0, life := .disposed, lastCode := 0x00, response := some ⟨0x00, .absent⟩ }) ∧
    (s.life = .disposed → exec .dispose s = .next { s with lastCode := 0x00, response := some ⟨0x00, .absent⟩ })

/-- R231: a second DISPOSE, and every further one, changes nothing, not even LAST_CODE, after a DISPOSE. -/
def Obligations.DisposeIsIdempotent : Prop :=
  ∀ s t : State, exec .dispose s = .next t → exec .dispose t = .next t

/-- R232: the lifecycle table, row by row, for one transaction at the port, in a state where S is 0 whenever DISPOSED. In
either state: a valid INIT ends READY with the words of R132 (SIGMA from general knowledge: G1, log 9), an invalid one
DISPOSED with S all 0. COMBINE on DISPOSED answers 0x08. COMBINE on READY makes ceil(count / 64) block steps when its
operands are valid (R185), and answers 0x04 to 0x07 and leaves S when they are not. DISPOSE ends DISPOSED with S all 0. An
illegal word leaves LIFE and S. Last, a reset enters DISPOSED from either state. -/
def Obligations.LifecycleTable : Prop :=
  (∀ (t : Transaction) (s u : State), (s.life = .disposed → s.words = Vector.replicate 16 0) → issue t s = .next u →
    (∀ (k n : List Byte) (ctr : Word), decode t = .ok (.init (.present k) (.present n) ctr) → k.length = 32 →
      n.length = 12 → u.lastCode = 0x00 ∧ u.life = .ready ∧
      u.words = #v[0x61707865, 0x3320646e, 0x79622d32, 0x6b206574,
        unpackLe k 0, unpackLe k 4, unpackLe k 8, unpackLe k 12,
        unpackLe k 16, unpackLe k 20, unpackLe k 24, unpackLe k 28,
        ctr, unpackLe n 0, unpackLe n 4, unpackLe n 8]) ∧
    (∀ key nonce ctr, decode t = .ok (.init key nonce ctr) →
      ¬(∃ k n, key = .present k ∧ nonce = .present n ∧ k.length = 32 ∧ n.length = 12) →
      u.lastCode ∈ [0x01, 0x02, (0x03 : Byte)] ∧ u.life = .disposed ∧ u.words = Vector.replicate 16 0) ∧
    (∀ out inp x, ∀ i ∈ combineForms out inp x, decode t = .ok i → s.life = .disposed →
      u.lastCode = 0x08 ∧ u.life = .disposed ∧ u.words = Vector.replicate 16 0) ∧
    (∀ (a b : List Byte) (x : Word) (n : Nat), ∀ i ∈ combineForms (.present a) (.present b) x, decode t = .ok i →
      s.life = .ready → x.toInt = n → n ≤ b.length → n ≤ a.length →
      u.lastCode = 0x00 ∧ u.life = .ready ∧ u.words = (fun w => (block w).2)^[(n + 63) / 64] s.words) ∧
    (∀ out inp x, ∀ i ∈ combineForms out inp x, decode t = .ok i → s.life = .ready →
      ¬(∃ (a b : List Byte) (n : Nat), out = .present a ∧ inp = .present b ∧ x.toInt = n ∧ n ≤ b.length ∧
        n ≤ a.length) →
      u.lastCode ∈ [0x04, 0x05, 0x06, (0x07 : Byte)] ∧ u.life = .ready ∧ u.words = s.words) ∧
    (decode t = .ok .dispose → u.lastCode = 0x00 ∧ u.life = .disposed ∧ u.words = Vector.replicate 16 0) ∧
    ((∀ i, decode t ≠ .ok i) → u.lastCode = 0x09 ∧ u.life = s.life ∧ u.words = s.words)) ∧
  (∀ (s : State) (rest : List Request), s.queue = .reset :: rest →
    ∃ u, step s = .next u ∧ u.life = .disposed ∧ u.words = Vector.replicate 16 0)

/-! ## Rules of the whole machine -/

/-- R252: which codes each command can answer. -/
def Obligations.CodesEachCommandRaises : Prop :=
  ∀ (t : Transaction) (s u : State), issue t s = .next u →
    (t.cmd = 0x00000003 → u.lastCode = 0x00) ∧
    (t.cmd = 0x00000001 → u.lastCode ∈ [0x00, 0x01, 0x02, (0x03 : Byte)]) ∧
    (t.cmd ∈ [0x00000002, 0x00000102, 0x00000202, 0x00000302, (0x00000402 : Word)] →
      u.lastCode ∈ [0x00, 0x04, 0x05, 0x06, 0x07, (0x08 : Byte)]) ∧
    (u.lastCode = 0x09 ↔
      t.cmd ∉ [0x00000001, 0x00000003, 0x00000002, 0x00000102, 0x00000202, 0x00000302, (0x00000402 : Word)])

/-- R253: the effect of an error. A failing INIT leaves S all 0 and LIFE = DISPOSED; any other transaction that does not
answer 0x00 writes only LAST_CODE, and its response buffer is operand A as presented. -/
def Obligations.ErrorsWriteOnlyLastCode : Prop :=
  ∀ (t : Transaction) (s u : State), issue t s = .next u → u.lastCode ≠ 0x00 →
    (t.cmd = 0x00000001 → u = { s with
      words := Vector.replicate 16 0, life := .disposed, lastCode := u.lastCode,
      response := some ⟨u.lastCode, .absent⟩ }) ∧
    (t.cmd ≠ 0x00000001 → u = { s with lastCode := u.lastCode, response := some ⟨u.lastCode, t.a⟩ })

/-- R27: every command leaves in LAST_CODE the code of its response, illegal ones included. -/
def Obligations.LastCodeIsTheCodeOfTheResponse : Prop :=
  ∀ (t : Transaction) (s u : State), issue t s = .next u → ∃ r, u.response = some r ∧ u.lastCode = r.code

/-- R255, R250: no command traps or stops: every command in every state ends in a next state. -/
def Obligations.EveryCommandAnswers : Prop :=
  (∀ (i : Instr) (s : State), ∃ t, exec i s = .next t) ∧
  (∀ (t : Transaction) (s : State), t.wf = true → ∃ u, issue t s = .next u)

/-- R22: while LIFE = READY, a command other than INIT and DISPOSE changes S only by block steps, exactly ceil(count / 64)
of them when it answers 0x00 and none when it does not (R185); so S[0..11], S[14] and S[15] do not change, and LIFE stays
READY. An illegal word leaves S as it is. -/
def Obligations.KeyAndNonceAreImmutableWhileReady : Prop :=
  (∀ (i : Instr) (s t : State), s.life = .ready → (∀ k n c, i ≠ .init k n c) → i ≠ .dispose → exec i s = .next t →
    (∃ (out inp : Buf) (x : Word), i ∈ combineForms out inp x ∧
      (t.lastCode = 0x00 → ∃ n : Nat, x.toInt = n ∧ t.words = (fun w => (block w).2)^[(n + 63) / 64] s.words) ∧
      (t.lastCode ≠ 0x00 → t.words = s.words)) ∧
    (∀ j, (h : j < 16) → j ≠ 12 → j ≠ 13 → t.words[j] = s.words[j]) ∧ t.life = .ready) ∧
  (∀ (t : Transaction) (s u : State), s.life = .ready → (∀ i, decode t ≠ .ok i) → issue t s = .next u →
    u.words = s.words ∧ u.life = .ready)

/-- R55: no command changes CAP or the requests at the port (log 1), and only a COMBINE that answers 0x00 with a count
above 0 touches the hidden buffers. The table of R55 does not speak of W and K: that they stay as they were outside such a
COMBINE is the model's choice (log 6), and so is the draw counter beside them (log 7). -/
def Obligations.CommandsLeaveCapPortAndHidden : Prop :=
  ∀ (i : Instr) (s t : State), exec i s = .next t →
    t.capAuto = s.capAuto ∧ t.queue = s.queue ∧
    ((∀ out inp x, i ∈ combineForms out inp x → x = 0 ∨ t.lastCode ≠ 0x00) →
      t.hidden = s.hidden ∧ t.draws = s.draws)

/-- R23: nothing but the output of a successful COMBINE depends on the words of S: any other transaction answers the same
whatever S holds. -/
def Obligations.OnlyCombineOutputDependsOnS : Prop :=
  ∀ (t : Transaction) (s u : State) (w : Words), issue t s = .next u →
    ∃ v, issue t { s with words := w } = .next v ∧ v.lastCode = u.lastCode ∧
      ((t.cmd = 0x00000001 ∨ t.cmd = 0x00000003 ∨ u.lastCode ≠ 0x00) → v.response = u.response)

/-- R33, R235: no output depends on the hidden buffers: the same commands from two states that differ only in W and K (and
the model's own draw counter) end in states that differ at most in those. -/
def Obligations.HiddenBuffersAreUnobservable : Prop :=
  ∀ (ts : List Transaction) (s s' t : State), s.sameButHidden s' → performOthers ts s = .next t →
    ∃ t', performOthers ts s' = .next t' ∧ t.sameButHidden t'

/-- The invariant of Safety.lean (R21, R25, R251) holds at reset. -/
def Obligations.ResetMeetsTheInvariant : Prop := State.reset.Inv

/-- R21, R25, R251: from every state that meets the invariant, a step leads to a state that meets it. -/
def Obligations.StepKeepsTheInvariant : Prop :=
  ∀ s t : State, s.Inv → step s = .next t → t.Inv

/-- R25: in every state a CORE can be in, whatever the HOST agents post and whenever, S is all 0 while DISPOSED. -/
def Obligations.DisposedMeansZeroInEveryRun : Prop :=
  ∀ s : State, Reachable s → s.life = .disposed → ∀ i, (h : i < 16) → s.words[i] = 0

/-! ## Several COREs -/

/-- R61, R262: every CORE of a system starts DISPOSED and there is at least one; a step of one CORE leaves every other as
it is, and steps of two different COREs give the same system in either order. -/
def Obligations.CoresAreIndependent : Prop :=
  (System.reset.cores ≠ [] ∧ ∀ s ∈ System.reset.cores, s.life = .disposed) ∧
  (∀ (cores : List State) (i : Fin cores.length) (sys : System), System.stepCore ⟨cores⟩ i = .next sys →
    sys.cores.length = cores.length ∧ (∃ t, step cores[i] = .next t ∧ sys.cores[i.val]? = some t) ∧
    ∀ j : Nat, j ≠ i.val → sys.cores[j]? = cores[j]?) ∧
  (∀ (cores : List State) (i j : Nat) (hi : i < cores.length) (hj : j < cores.length), i ≠ j → ∀ (a b : State),
    step cores[i] = .next a → step cores[j] = .next b →
    ∃ ab ba : System, System.stepCore ⟨cores⟩ ⟨i, hi⟩ = .next ab ∧ System.stepCore ⟨cores⟩ ⟨j, hj⟩ = .next ba ∧
      ∃ c, (∃ h, System.stepCore ab ⟨j, h⟩ = .next c) ∧ ∃ h, System.stepCore ba ⟨i, h⟩ = .next c)

/-! ## HOST procedures -/

/-- R217, R218: ENCRYPT_ALLOC of a present input on a READY CORE, with a length n within the input or none (then the
input's length), returns exactly n bytes, each the input byte XOR its keystream byte. -/
def Obligations.EncryptAllocReturnsEveryByte : Prop :=
  ∀ (inp : List Byte) (len : Option Word) (n : Nat) (s : State), s.life = .ready → inp.length ≤ 2 ^ 31 - 1 →
    (len = none → n = inp.length) → (∀ x, len = some x → x.toInt = n) → n ≤ inp.length →
    ∃ t r, encryptAlloc (.present inp) len s = .next (t, ⟨0x00, .present r⟩) ∧ r.length = n ∧
      ∀ p, (hp : p < inp.length) → p < n → r[p]? = some (inp[p] ^^^ keyByte s.words p)

/-- R219: UTF-8 decoding inverts UTF-8 encoding, for every text. The encoding itself is from general knowledge (G6, log
14). -/
def Obligations.Utf8RoundTrip : Prop := ∀ text : List Char, utf8Decode (utf8Encode text) = some text

/-- R219, R193: DECRYPT_TO_TEXT of the bytes of ENCRYPT_TEXT, after an INIT with the same key, nonce and counter, gives
the text back. -/
def Obligations.TextRoundTrip : Prop :=
  ∀ (key nonce : List Byte) (ctr : Word) (text : List Char) (s s' : State), key.length = 32 → nonce.length = 12 →
    (utf8Encode text).length ≤ 2 ^ 31 - 1 →
    ∃ s1 s2 s3 s4 cipher, exec (.init (.present key) (.present nonce) ctr) s = .next s1 ∧
      encryptText text s1 = .next (s2, ⟨0x00, .present cipher⟩) ∧
      exec (.init (.present key) (.present nonce) ctr) s' = .next s3 ∧
      decryptToText (.present cipher) s3 = .next (s4, .text text)

/-- R211, R210, R215: the checks of a stream before its first read, in order: a chunk size outside 1 .. `P_MAX_BUF` is
refused, before anything else is looked at (log 13);
then 0x08 on a DISPOSED CORE, 0x04 without a source, 0x05 without a sink; none of them changes the CORE or writes to the
sink. -/
def Obligations.StreamChecksBeforeTheFirstRead : Prop :=
  ∀ (sink : Option (List WriteTurn)) (source : Option (List ReadTurn)) (chunk : Int) (s : State),
    ((chunk < 1 ∨ 2 ^ 31 - 1 < chunk) → encryptStream sink source chunk s = .refused .chunkOutOfRange) ∧
    (1 ≤ chunk → chunk ≤ 2 ^ 31 - 1 →
      (s.life = .disposed → ∃ t, encryptStream sink source chunk s = .next t ∧
        t.phase = .ended (.failed 0x08) ∧ t.core = s ∧ t.sink = []) ∧
      (s.life = .ready → source = none → ∃ t, encryptStream sink source chunk s = .next t ∧
        t.phase = .ended (.failed 0x04) ∧ t.core = s ∧ t.sink = []) ∧
      (s.life = .ready → source ≠ none → sink = none → ∃ t, encryptStream sink source chunk s = .next t ∧
        t.phase = .ended (.failed 0x05) ∧ t.core = s ∧ t.sink = []))

/-- R212 (channels as lists of answers: log 12): a stream that owns the CORE and reads chunks of which every one but the
last is a multiple of 64 bytes writes the bytes of one COMBINE over their concatenation, and leaves S as that COMBINE
does. -/
def Obligations.StreamOfWholeBlocksIsOneCombine : Prop :=
  ∀ (chunks : List (List Byte)) (out : List Byte) (x : Word) (chunk : Int) (s : State), s.life = .ready →
    1 ≤ chunk → chunk ≤ 2 ^ 31 - 1 → (∀ b ∈ chunks, b ≠ [] ∧ (b.length : Int) ≤ chunk) →
    (∀ b ∈ chunks.dropLast, b.length % 64 = 0) → x.toInt = chunks.flatten.length → out.length = chunks.flatten.length →
    ∃ t u, encryptStream (some (chunks.map fun _ => ⟨[], .done⟩))
        (some (chunks.map (fun b => ⟨[], .bytes b⟩) ++ [⟨[], .bytes []⟩])) chunk s = .next t ∧
      t.phase = .ended .succeeded ∧
      exec (.combine (.present out) (.present chunks.flatten) x) s = .next u ∧
      u.response = some ⟨0x00, .present t.sink⟩ ∧ t.core.words = u.words

/-- R213: a stream over the bytes another stream wrote, from a CORE with the same words of S, writes what the first stream
read, when its reads have the same lengths, or when every read but the last of both is whole blocks. The chunk sizes need
not agree. (Channels as lists of answers: log 12.) -/
def Obligations.StreamOfTheSameReadsDecrypts : Prop :=
  ∀ (chunks pieces : List (List Byte)) (chunk chunk' : Int) (s s' : State) (t : Task), s.life = .ready →
    s'.life = .ready → s'.words = s.words → 1 ≤ chunk → chunk ≤ 2 ^ 31 - 1 → 1 ≤ chunk' → chunk' ≤ 2 ^ 31 - 1 →
    (∀ b ∈ chunks, b ≠ [] ∧ (b.length : Int) ≤ chunk) → (∀ b ∈ pieces, b ≠ [] ∧ (b.length : Int) ≤ chunk') →
    encryptStream (some (chunks.map fun _ => ⟨[], .done⟩))
      (some (chunks.map (fun b => ⟨[], .bytes b⟩) ++ [⟨[], .bytes []⟩])) chunk s = .next t →
    pieces.flatten = t.sink →
    (pieces.map List.length = chunks.map List.length ∨
      ((∀ b ∈ chunks.dropLast, b.length % 64 = 0) ∧ ∀ b ∈ pieces.dropLast, b.length % 64 = 0)) →
    ∃ u, decryptStream (some (pieces.map fun _ => ⟨[], .done⟩))
        (some (pieces.map (fun b => ⟨[], .bytes b⟩) ++ [⟨[], .bytes []⟩])) chunk' s' = .next u ∧
      u.phase = .ended .succeeded ∧ u.sink = chunks.flatten ∧ u.core.words = t.core.words

/-- R212, R216: whatever the chunk lengths, a stream that owns the CORE and reads the chunks and then 0 bytes succeeds,
and its sink is the measure: a read error after the chunks ends the stream with that error, the same bytes written and
the counter pair advanced by one block step per block begun of each chunk; a write error on one chunk more ends it with
that error, the same bytes written, the counter advanced for that chunk too; and a source that never answers the next
read, or a sink that never answers the write of one chunk more, leaves the stream waiting forever (the fault of log 12).
-/
def Obligations.StreamErrorsKeepWhatWasDone : Prop :=
  ∀ (chunks : List (List Byte)) (chunk : Int) (e : Nat) (s : State), s.life = .ready →
    1 ≤ chunk → chunk ≤ 2 ^ 31 - 1 → (∀ b ∈ chunks, b ≠ [] ∧ (b.length : Int) ≤ chunk) →
    ∃ u, encryptStream (some (chunks.map fun _ => ⟨[], .done⟩))
        (some (chunks.map (fun b => ⟨[], .bytes b⟩) ++ [⟨[], .bytes []⟩])) chunk s = .next u ∧
      u.phase = .ended .succeeded ∧
    (∃ t, encryptStream (some (chunks.map fun _ => ⟨[], .done⟩))
        (some (chunks.map (fun b => ⟨[], .bytes b⟩) ++ [⟨[], .error e⟩])) chunk s = .next t ∧
      t.phase = .ended (.ioError e) ∧ t.sink = u.sink ∧ t.sink.length = chunks.flatten.length ∧
      counterPair t.core.words = (counterPair s.words + (chunks.map fun b => (b.length + 63) / 64).sum) % 2 ^ 64) ∧
    (∀ last : List Byte, last ≠ [] → (last.length : Int) ≤ chunk →
      ∃ t, encryptStream (some (chunks.map (fun _ => ⟨[], .done⟩) ++ [⟨[], .error e⟩]))
          (some ((chunks ++ [last]).map fun b => ⟨[], .bytes b⟩)) chunk s = .next t ∧
        t.phase = .ended (.ioError e) ∧ t.sink = u.sink ∧
        counterPair t.core.words =
          (counterPair s.words + ((chunks ++ [last]).map fun b => (b.length + 63) / 64).sum) % 2 ^ 64) ∧
    encryptStream (some (chunks.map fun _ => ⟨[], .done⟩)) (some (chunks.map fun b => ⟨[], .bytes b⟩)) chunk s =
      .fault .channelNeverAnswers ∧
    (∀ last : List Byte, last ≠ [] → (last.length : Int) ≤ chunk →
      encryptStream (some (chunks.map fun _ => ⟨[], .done⟩)) (some ((chunks ++ [last]).map fun b => ⟨[], .bytes b⟩))
        chunk s = .fault .channelNeverAnswers)

/-- R215, R285, R221: another agent's DISPOSE ends a stream that owns the CORE otherwise. Taken before a read answers, it
makes the COMBINE of that chunk fail with 0x08, and the sink holds what the same chunks give in a stream that succeeds.
Taken before a write answers, that chunk is still written, and the COMBINE of the next one fails: the sink holds what the
chunks up to that one give. The stream ends with 0x08 and the CORE is DISPOSED. (Channels as lists of answers: log 12.) -/
def Obligations.StreamStopsWhenDisposed : Prop :=
  (∀ (chunks : List (List Byte)) (last : List Byte) (chunk : Int) (s : State) (a b : Buf) (x : Word), s.life = .ready →
    1 ≤ chunk → chunk ≤ 2 ^ 31 - 1 → (∀ b ∈ chunks ++ [last], b ≠ [] ∧ (b.length : Int) ≤ chunk) → a.wf = true →
    b.wf = true →
    ∃ u t, encryptStream (some (chunks.map fun _ => ⟨[], .done⟩))
        (some (chunks.map (fun b => ⟨[], .bytes b⟩) ++ [⟨[], .bytes []⟩])) chunk s = .next u ∧
      u.phase = .ended .succeeded ∧
      encryptStream (some (chunks.map fun _ => ⟨[], .done⟩))
        (some (chunks.map (fun b => ⟨[], .bytes b⟩) ++ [⟨[⟨0x00000003, a, b, x⟩], .bytes last⟩])) chunk s = .next t ∧
      t.phase = .ended (.failed 0x08) ∧ t.sink = u.sink ∧ t.sink.length = chunks.flatten.length ∧
      t.core.life = .disposed ∧ t.core.lastCode = 0x08) ∧
  (∀ (chunks : List (List Byte)) (mid last : List Byte) (chunk : Int) (s : State) (a b : Buf) (x : Word),
    s.life = .ready → 1 ≤ chunk → chunk ≤ 2 ^ 31 - 1 →
    (∀ b ∈ chunks ++ [mid, last], b ≠ [] ∧ (b.length : Int) ≤ chunk) → a.wf = true → b.wf = true →
    ∃ u t, encryptStream (some ((chunks ++ [mid]).map fun _ => ⟨[], .done⟩))
        (some ((chunks ++ [mid]).map (fun b => ⟨[], .bytes b⟩) ++ [⟨[], .bytes []⟩])) chunk s = .next u ∧
      u.phase = .ended .succeeded ∧
      encryptStream (some (chunks.map (fun _ => ⟨[], .done⟩) ++ [⟨[⟨0x00000003, a, b, x⟩], .done⟩]))
        (some ((chunks ++ [mid, last]).map fun b => ⟨[], .bytes b⟩)) chunk s = .next t ∧
      t.phase = .ended (.failed 0x08) ∧ t.sink = u.sink ∧ t.sink.length = (chunks ++ [mid]).flatten.length ∧
      t.core.life = .disposed ∧ t.core.lastCode = 0x08)

/-- R214, R221 (channels as lists of answers: log 12): the _ASYNC form, suspended at its reads and writes while other
agents' commands may run, ends exactly as the synchronous form does on the same answers. -/
def Obligations.AsyncStreamMatchesSynchronous : Prop :=
  ∀ (reads : List ReadTurn) (writes : List WriteTurn) (chunk : Int) (s : State) (start t : Task),
    streamStart true true chunk s = .next start →
    encryptStream (some writes) (some reads) chunk s = .next t → resumeAll (eventsOf reads writes) start = .next t
end

