-- ==== Sys2Proof/Laws/State.lean ====
section
/-! SUPPORT. Laws/State.lean: one lemma per field per update of the state, so that no proof unfolds a record update. -/

namespace Sys2Proof.Machine

@[simp] theorem endCipher_words (s : State) : s.endCipher.words = zeroWords := rfl
@[simp] theorem endCipher_life (s : State) : s.endCipher.life = .disposed := rfl
@[simp] theorem endCipher_lastCode (s : State) : s.endCipher.lastCode = s.lastCode := rfl
@[simp] theorem endCipher_capAuto (s : State) : s.endCipher.capAuto = s.capAuto := rfl
@[simp] theorem endCipher_hidden (s : State) : s.endCipher.hidden = s.hidden := rfl
@[simp] theorem endCipher_queue (s : State) : s.endCipher.queue = s.queue := rfl
@[simp] theorem endCipher_response (s : State) : s.endCipher.response = s.response := rfl
@[simp] theorem endCipher_draws (s : State) : s.endCipher.draws = s.draws := rfl

@[simp] theorem leaveHidden_words (s : State) : s.leaveHidden.words = s.words := rfl
@[simp] theorem leaveHidden_life (s : State) : s.leaveHidden.life = s.life := rfl
@[simp] theorem leaveHidden_lastCode (s : State) : s.leaveHidden.lastCode = s.lastCode := rfl
@[simp] theorem leaveHidden_capAuto (s : State) : s.leaveHidden.capAuto = s.capAuto := rfl
@[simp] theorem leaveHidden_queue (s : State) : s.leaveHidden.queue = s.queue := rfl
@[simp] theorem leaveHidden_response (s : State) : s.leaveHidden.response = s.response := rfl
@[simp] theorem leaveHidden_draws (s : State) : s.leaveHidden.draws = s.draws.next := rfl

@[simp] theorem takeReset_words (s : State) : s.takeReset.words = zeroWords := rfl
@[simp] theorem takeReset_life (s : State) : s.takeReset.life = .disposed := rfl
@[simp] theorem takeReset_lastCode (s : State) : s.takeReset.lastCode = 0 := rfl
@[simp] theorem takeReset_capAuto (s : State) : s.takeReset.capAuto = s.capAuto := rfl
@[simp] theorem takeReset_queue (s : State) : s.takeReset.queue = s.queue := rfl
@[simp] theorem takeReset_response (s : State) : s.takeReset.response = s.response := rfl
@[simp] theorem takeReset_draws (s : State) : s.takeReset.draws = s.draws.next := rfl

/-- A draw is always of the same CORE. -/
@[simp] theorem draw_next_core (d : Draw) : d.next.core = d.core := rfl
@[simp] theorem draw_next_number (d : Draw) : d.next.number = d.number + 1 := rfl

@[simp] theorem reset_words : State.reset.words = zeroWords := rfl
@[simp] theorem reset_life : State.reset.life = .disposed := rfl
@[simp] theorem reset_lastCode : State.reset.lastCode = 0 := rfl
@[simp] theorem reset_capAuto : State.reset.capAuto = Config.autoWidth := rfl
@[simp] theorem reset_queue : State.reset.queue = [] := rfl
@[simp] theorem reset_response : State.reset.response = none := rfl

@[simp] theorem zeroWords_getElem (i : Nat) (h : i < 16) : zeroWords[i] = 0 := by
  simp [zeroWords]

/-- `andThen` goes on exactly where its first part does. -/
theorem andThen_eq_next {α β : Type} {r : Result α} {f : α → Result β} {b : β} :
    andThen r f = .next b ↔ ∃ a, r = .next a ∧ f a = .next b := by
  cases r <;> simp [andThen]

@[simp] theorem andThen_next {α β : Type} (a : α) (f : α → Result β) : andThen (.next a) f = f a := rfl

theorem andThen_assoc {α β γ : Type} (r : Result α) (f : α → Result β) (g : β → Result γ) :
    andThen (andThen r f) g = andThen r fun a => andThen (f a) g := by
  cases r <;> rfl

end Sys2Proof.Machine
end

