-- ==== Sys2Proof/Laws/Primitives.lean ====
section
/-! SUPPORT. Laws/Primitives.lean: what the word primitives compute, bit by bit and byte by byte
(spec 40_word_primitives.md). -/

namespace Sys2Proof.Machine

theorem add32_toNat (a b : Word) : (add32 a b).toNat = (a.toNat + b.toNat) % 2 ^ 32 := by
  simp [add32, BitVec.toNat_add]

/-- `rotl32` is the bit vector library's rotation. -/
theorem rotl32_eq_rotateLeft (x : Word) (n : Nat) (hn : n < 32) : rotl32 x n = x.rotateLeft n := by
  unfold rotl32
  split
  · next h =>
    subst h
    apply BitVec.eq_of_getLsbD_eq
    intro i hi
    simp [hi]
  · rw [BitVec.rotateLeft_def, Nat.mod_eq_of_lt hn]

/-- Bit i of a rotation is bit (i - n) mod 32 of the word (R102). -/
theorem rotl32_getLsbD (x : Word) (n i : Nat) (hn : n < 32) (hi : i < 32) :
    (rotl32 x n).getLsbD i = x.getLsbD ((i + 32 - n) % 32) := by
  rw [rotl32_eq_rotateLeft x n hn, BitVec.getLsbD_rotateLeft, Nat.mod_eq_of_lt hn]
  by_cases h : i < n
  · simp only [h, decide_true, cond_true]
    congr 1
    omega
  · have : (i + 32 - n) % 32 = i - n := by omega
    simp [h, hi, this]

/-- A rotation is undone by the complementary one (R102). -/
theorem rotl32_rotl32 (x : Word) (n : Nat) (h0 : 0 < n) (hn : n < 32) : rotl32 (rotl32 x n) (32 - n) = x := by
  apply BitVec.eq_of_getLsbD_eq
  intro i hi
  rw [rotl32_getLsbD _ _ _ (by omega) hi, rotl32_getLsbD _ _ _ hn (Nat.mod_lt _ (by omega))]
  congr 1
  omega

theorem rotl32_injective (n : Nat) (h0 : 0 < n) (hn : n < 32) {x y : Word} (h : rotl32 x n = rotl32 y n) : x = y := by
  rw [← rotl32_rotl32 x n h0 hn, h, rotl32_rotl32 y n h0 hn]

theorem byteAt_eq (buf : List Byte) (i : Nat) (h : i < buf.length) : byteAt buf i = buf[i] := by
  simp [byteAt, h]

/-- Byte k of an unpacked word is the k-th of its four bytes (R103). -/
theorem unpackLe_byte (buf : List Byte) (i k : Nat) (hk : k < 4) :
    (unpackLe buf i).extractLsb' (8 * k) 8 = byteAt buf (i + k) := by
  have hcases : k = 0 ∨ k = 1 ∨ k = 2 ∨ k = 3 := by omega
  apply BitVec.eq_of_getLsbD_eq
  intro j hj
  rcases hcases with rfl | rfl | rfl | rfl <;>
    simp only [unpackLe, BitVec.getLsbD_extractLsb', BitVec.getLsbD_or, BitVec.getLsbD_shiftLeft,
      BitVec.getLsbD_setWidth, hj, decide_true, Bool.true_and] <;>
    interval_cases j <;> simp

/-- Unpacking then packing gives the four bytes back (R104). -/
theorem packLe_unpackLe (buf : List Byte) (i : Nat) :
    packLe (unpackLe buf i) = [byteAt buf i, byteAt buf (i + 1), byteAt buf (i + 2), byteAt buf (i + 3)] := by
  simp only [packLe, List.cons.injEq, and_true]
  exact ⟨unpackLe_byte buf i 0 (by omega), unpackLe_byte buf i 1 (by omega), unpackLe_byte buf i 2 (by omega),
    unpackLe_byte buf i 3 (by omega)⟩

/-- Two words with the same packed bytes are the same word. -/
theorem packLe_injective {v w : Word} (h : packLe v = packLe w) : v = w := by
  simp only [packLe, List.cons.injEq, and_true] at h
  obtain ⟨h0, h1, h2, h3⟩ := h
  have bit : ∀ {x y : Word} {o : Nat}, x.extractLsb' o 8 = y.extractLsb' o 8 → ∀ j, j < 8 →
      x.getLsbD (o + j) = y.getLsbD (o + j) := by
    intro x y o hxy j hj
    have := congrArg (fun b => BitVec.getLsbD b j) hxy
    simpa [hj] using this
  apply BitVec.eq_of_getLsbD_eq
  intro i hi
  have : i < 8 ∨ (8 ≤ i ∧ i < 16) ∨ (16 ≤ i ∧ i < 24) ∨ (24 ≤ i ∧ i < 32) := by omega
  rcases this with h | ⟨h, h'⟩ | ⟨h, h'⟩ | ⟨h, h'⟩
  · simpa using bit h0 i h
  · simpa [Nat.add_sub_cancel' h] using bit h1 (i - 8) (by omega)
  · simpa [Nat.add_sub_cancel' h] using bit h2 (i - 16) (by omega)
  · simpa [Nat.add_sub_cancel' h] using bit h3 (i - 24) (by omega)

/-- Packing then unpacking gives the word back (R104). -/
theorem unpackLe_packLe (w : Word) : unpackLe (packLe w) 0 = w := by
  apply packLe_injective
  rw [packLe_unpackLe]
  simp [byteAt, packLe]

@[simp] theorem packLe_length (w : Word) : (packLe w).length = 4 := rfl

theorem serialize_getElem (v : Words) (n : Nat) (h : n < 64) :
    (serialize v)[n] = (v[n / 4]).extractLsb' (8 * (n % 4)) 8 := by
  simp [serialize]

@[simp] theorem wordsLe_length (buf : List Byte) (n : Nat) : (wordsLe buf n).length = n := by simp [wordsLe]

theorem wordsLe_getElem (buf : List Byte) (n i : Nat) (h : i < (wordsLe buf n).length) :
    (wordsLe buf n)[i] = unpackLe buf (4 * i) := by
  simp [wordsLe]

end Sys2Proof.Machine
end

