-- ==== Sys2Proof/Laws/Block.lean ====
section
/-! SUPPORT. Laws/Block.lean: what the block step does to S (spec 42_block.md R158 to R163). -/

namespace Sys2Proof.Machine

theorem advance_counter (s : Words) : (advance s)[12] = s[12] + 1#32 := by
  by_cases h : s[12] + 1#32 = 0#32 <;> simp [advance, inc32, add32, h]

theorem advance_carry (s : Words) : (advance s)[13] = if s[12] + 1#32 = 0#32 then s[13] + 1#32 else s[13] := by
  by_cases h : s[12] + 1#32 = 0#32 <;> simp [advance, inc32, add32, h]

theorem advance_other (s : Words) (i : Nat) (h : i < 16) (h12 : i ≠ 12) (h13 : i ≠ 13) : (advance s)[i] = s[i] := by
  simp only [advance]
  split <;> simp [Ne.symm h12, Ne.symm h13]

theorem counterPair_lt (s : Words) : counterPair s < 2 ^ 64 := by
  unfold counterPair
  have := s[12].isLt
  have := s[13].isLt
  omega

/-- S[12] wraps exactly when it holds its largest value. -/
theorem wraps_iff (c : Word) : c + 1#32 = 0#32 ↔ c.toNat = 2 ^ 32 - 1 := by
  rw [← BitVec.toNat_inj]
  have := c.isLt
  simp only [BitVec.toNat_add, BitVec.toNat_ofNat]
  omega

/-- One block step advances the 64-bit counter pair by one (R161). -/
theorem counterPair_advance (s : Words) : counterPair (advance s) = (counterPair s + 1) % 2 ^ 64 := by
  have b12 := s[12].isLt
  have b13 := s[13].isLt
  simp only [counterPair, advance_counter, advance_carry, wraps_iff]
  by_cases h : s[12].toNat = 2 ^ 32 - 1
  · simp only [h, if_true, BitVec.toNat_add, BitVec.toNat_ofNat]
    omega
  · simp only [h, if_false, BitVec.toNat_add, BitVec.toNat_ofNat]
    omega

/-- Two states that agree outside the counter pair, and on the pair, are the same. -/
theorem words_ext_counter {s t : Words} (ho : ∀ i, (h : i < 16) → i ≠ 12 → i ≠ 13 → s[i] = t[i])
    (hc : counterPair s = counterPair t) : s = t := by
  have hs12 := s[12].isLt
  have ht12 := t[12].isLt
  unfold counterPair at hc
  have h12 : s[12] = t[12] := BitVec.eq_of_toNat_eq (by omega)
  have h13 : s[13] = t[13] := BitVec.eq_of_toNat_eq (by omega)
  apply Vector.ext
  intro i hi
  by_cases e12 : i = 12
  · subst e12; exact h12
  · by_cases e13 : i = 13
    · subst e13; exact h13
    · exact ho i hi e12 e13

theorem counterPair_withCounter (s : Words) (c : Nat) : counterPair (withCounter s c) = c % 2 ^ 64 := by
  simp [counterPair, withCounter]
  omega

theorem withCounter_other (s : Words) (c i : Nat) (h : i < 16) (h12 : i ≠ 12) (h13 : i ≠ 13) :
    (withCounter s c)[i] = s[i] := by
  simp [withCounter, Ne.symm h12, Ne.symm h13]

/-- `n` block steps set the counter pair to C + n (R161). -/
theorem advance_iterate (s : Words) (n : Nat) : advance^[n] s = withCounter s (counterPair s + n) := by
  induction n with
  | zero =>
    apply words_ext_counter
    · intro i h h12 h13; simp [withCounter_other s _ i h h12 h13]
    · rw [counterPair_withCounter, Nat.add_zero, Nat.mod_eq_of_lt (counterPair_lt s)]
      rfl
  | succ n ih =>
    rw [Function.iterate_succ_apply', ih]
    apply words_ext_counter
    · intro i h h12 h13
      rw [advance_other _ i h h12 h13, withCounter_other s _ i h h12 h13, withCounter_other s _ i h h12 h13]
    · rw [counterPair_advance, counterPair_withCounter, counterPair_withCounter]
      omega

theorem counterPair_iterate (s : Words) (n : Nat) : counterPair (advance^[n] s) = (counterPair s + n) % 2 ^ 64 := by
  rw [advance_iterate, counterPair_withCounter]

/-- The block step's effect on S is the counter advance (R160). -/
theorem block_snd : (fun w => (block w).2) = advance := rfl

/-- The block steps of a COMBINE: one per block begun (R185). -/
theorem blocksFor_eq_ceil (n : Nat) : blocksFor n = (n + 63) / 64 := by
  unfold blocksFor
  split <;> omega

/-- Keystream byte `p` comes from the block of the (p / 64)-th block step. -/
theorem keyByte_eq (s : Words) (p : Nat) : keyByte s p = (keystream (advance^[p / 64] s))[p % 64] := by
  simp only [keyByte, advance_iterate]

/-- A quarter-round writes its four words and no other (R151). -/
theorem qr_getElem (a b c d : Fin 16) (w : Words) (i : Nat) (hi : i < 16) :
    (qr a b c d w)[i] =
      let q := quarterRound ⟨w[a], w[b], w[c], w[d]⟩
      if d = i then q.d else if c = i then q.c else if b = i then q.b else if a = i then q.a else w[i] := by
  simp only [qr, Vector.getElem_set]

/-- Quarter-rounds on disjoint words commute (R152, R153). -/
theorem qr_comm (a b c d a' b' c' d' : Fin 16) (w : Words)
  (h : ∀ x ∈ [a,b,c,d], ∀ y ∈ [a',b',c',d'], x ≠ y) : qr a b c d (qr a' b' c' d' w) = qr a' b' c' d' (qr a b c d w) := by
  simp only [List.mem_cons, List.not_mem_nil, or_false, forall_eq_or_imp, forall_eq] at h
  obtain ⟨⟨h1,h2,h3,h4⟩,⟨h5,h6,h7,h8⟩,⟨h9,h10,h11,h12⟩,h13,h14,h15,h16⟩ := h
  have F : ∀ {x y : Fin 16}, x ≠ y → (x:Nat) ≠ y := fun h => fun e => h (Fin.ext e)
  apply Vector.ext
  intro i hi
  have g : ∀ (w : Words) (x : Fin 16), w[x] = w[x.val] := fun w x => rfl
  simp only [qr_getElem, g]
  simp only [(F h1), (F h2), (F h3), (F h4), (F h5), (F h6), (F h7), (F h8), (F h9), (F h10), (F h11), (F h12), (F h13), (F h14), (F h15), (F h16), (F h1).symm, (F h2).symm, (F h3).symm, (F h4).symm, (F h5).symm, (F h6).symm, (F h7).symm, (F h8).symm, (F h9).symm, (F h10).symm, (F h11).symm, (F h12).symm, (F h13).symm, (F h14).symm, (F h15).symm, (F h16).symm, if_false]
  by_cases e1 : (d:Nat) = i
  · simp [e1]; subst e1; simp [(F h13).symm, (F h14).symm,(F h15).symm,(F h16).symm]
  by_cases e2 : (c:Nat) = i
  · simp [e1,e2]; subst e2; simp [(F h9).symm,(F h10).symm,(F h11).symm,(F h12).symm]
  by_cases e3 : (b:Nat) = i
  · simp [e1,e2,e3]; subst e3; simp [(F h5).symm,(F h6).symm,(F h7).symm,(F h8).symm]
  by_cases e4 : (a:Nat) = i
  · simp [e1,e2,e3,e4]; subst e4; simp [(F h1).symm,(F h2).symm,(F h3).symm,(F h4).symm]
  simp [e1,e2,e3,e4]

/-- Keystream bytes counted from a later block step (R186, R187). -/
theorem keyByte_withCounter (s : Words) (n q : Nat) : keyByte (withCounter s (counterPair s + n)) q =
    (keystream (withCounter s (counterPair s + n + q / 64)))[q % 64] := by
  rw [keyByte_eq, ← advance_iterate, ← Function.iterate_add_apply, advance_iterate]
  simp only [show counterPair s + (q / 64 + n) = counterPair s + n + q / 64 by omega]

end Sys2Proof.Machine
end

