-- ==== Sys2Proof/Laws/Combine.lean ====
section
/-! SUPPORT. Laws/Combine.lean: what the data path of COMBINE writes (spec 43_combine.md R181 to R189). The lane XOR of
any width, the tail and the whole data path are each described once, byte by byte. -/

namespace Sys2Proof.Machine

/-- `r'` is `r` with the `n` bytes from index `o` on replaced by input XOR keystream, the keystream counted from `o`. -/
structure XoredAt (r inp ks : List Byte) (o n : Nat) (r' : List Byte) : Prop where
  length_eq : r'.length = r.length
  byte_eq : ∀ i, r'[i]? = if o ≤ i ∧ i < o + n then some (byteAt inp i ^^^ byteAt ks (i - o)) else r[i]?

theorem splice_length (r bs : List Byte) (o : Nat) (h : o + bs.length ≤ r.length) :
    (splice r o bs).length = r.length := by
  simp [splice]
  omega

theorem splice_getElem? (r bs : List Byte) (o i : Nat) (h : o + bs.length ≤ r.length) :
    (splice r o bs)[i]? = if o ≤ i ∧ i < o + bs.length then bs[i - o]? else r[i]? := by
  have ho : (r.take o).length = o := by simp; omega
  unfold splice
  by_cases h1 : i < o
  · rw [List.append_assoc, List.getElem?_append_left (by omega), List.getElem?_take_of_lt h1, if_neg (by omega)]
  · by_cases h2 : i < o + bs.length
    · rw [List.append_assoc, List.getElem?_append_right (by omega), ho, List.getElem?_append_left (by omega),
        if_pos (by omega)]
    · rw [List.getElem?_append_right (by simp; omega), List.getElem?_drop, if_neg (by omega)]
      congr 1
      simp
      omega

theorem byteAt_slice (buf : List Byte) (o n i : Nat) (h : i < n) : byteAt (slice buf o n) i = byteAt buf (o + i) := by
  simp [byteAt, slice, List.getD_eq_getElem?_getD, h]

/-- The i-th byte of a byte string's little-endian number. -/
theorem leNat_byte (bs : List Byte) (i : Nat) : leNat bs / 2 ^ (8 * i) % 256 = (byteAt bs i).toNat := by
  induction bs generalizing i with
  | nil => simp [leNat, byteAt]
  | cons b bs ih =>
    have hb := b.isLt
    cases i with
    | zero => simp [leNat, byteAt]; omega
    | succ i =>
      have hpow : 2 ^ (8 * (i + 1)) = 256 * 2 ^ (8 * i) := by rw [Nat.mul_succ, Nat.pow_add]; omega
      have : (b.toNat + 256 * leNat bs) / 256 = leNat bs := by omega
      rw [leNat, hpow, ← Nat.div_div_eq_div_mul, this, ih]
      simp [byteAt]

/-- The i-th byte of a lane value is the i-th byte loaded (R188). -/
theorem laneLoad_byte (w : Nat) (bs : List Byte) (i : Nat) (h : i < w) :
    (laneLoad w bs).extractLsb' (8 * i) 8 = byteAt bs i := by
  apply BitVec.eq_of_toNat_eq
  rw [← leNat_byte]
  simp only [laneLoad, BitVec.extractLsb'_toNat, BitVec.toNat_ofNat, Nat.shiftRight_eq_div_pow]
  have : 2 ^ (8 * w) = 2 ^ (8 * i) * (256 * 2 ^ (8 * (w - i - 1))) := by
    rw [show (256 : Nat) = 2 ^ 8 by rfl, ← Nat.pow_add, ← Nat.pow_add]
    congr 1
    omega
  rw [this, Nat.mod_mul_right_div_self, Nat.mod_mul_right_mod]

theorem laneStore_length (w : Nat) (v : BitVec (8 * w)) : (laneStore w v).length = w := by simp [laneStore]

/-- A lane XOR of width `w` is the bytewise XOR of its `w` bytes, for every `w` (R188). -/
theorem laneStore_xor (w : Nat) (a b : List Byte) (i : Nat) (h : i < w) :
    (laneStore w (laneLoad w a ^^^ laneLoad w b))[i]? = some (byteAt a i ^^^ byteAt b i) := by
  simp only [laneStore, List.getElem?_map, List.getElem?_range h, Option.map_some, BitVec.extractLsb'_xor,
    laneLoad_byte w _ i h]

theorem xorLane_spec (w : Nat) (r inp ks : List Byte) (o k : Nat) (h : o + (k + 1) * w ≤ r.length) :
    (xorLane w inp o ks r k).length = r.length ∧
    ∀ i, (xorLane w inp o ks r k)[i]? =
      if o + k * w ≤ i ∧ i < o + (k + 1) * w then some (byteAt inp i ^^^ byteAt ks (i - o)) else r[i]? := by
  have hk : (k + 1) * w = k * w + w := by ring
  have hl : o + k * w + (laneStore w (laneLoad w (slice inp (o + k * w) w) ^^^ laneLoad w (slice ks (k * w) w))).length
      ≤ r.length := by rw [laneStore_length]; omega
  refine ⟨splice_length _ _ _ hl, fun i => ?_⟩
  rw [xorLane, splice_getElem? _ _ _ _ hl, laneStore_length]
  by_cases hi : o + k * w ≤ i ∧ i < o + k * w + w
  · rw [if_pos hi, if_pos (by omega), laneStore_xor w _ _ _ (by omega), byteAt_slice _ _ _ _ (by omega),
      byteAt_slice _ _ _ _ (by omega)]
    congr 3 <;> omega
  · rw [if_neg hi, if_neg (by omega)]

/-- The first `n` lanes write exactly the first `n * w` bytes (R188). -/
theorem xorLanes_spec (w : Nat) (r inp ks : List Byte) (o n : Nat) (h : o + n * w ≤ r.length) :
    XoredAt r inp ks o (n * w) ((List.range n).foldl (xorLane w inp o ks) r) := by
  induction n with
  | zero => exact ⟨by simp, fun i => by simp⟩
  | succ n ih =>
    have hn : (n + 1) * w = n * w + w := by ring
    have ih := ih (by omega)
    rw [List.range_succ, List.foldl_append, List.foldl_cons, List.foldl_nil]
    obtain ⟨hl, hb⟩ := xorLane_spec w ((List.range n).foldl (xorLane w inp o ks) r) inp ks o n
      (by rw [ih.length_eq]; omega)
    refine ⟨hl.trans ih.length_eq, fun i => ?_⟩
    rw [hb, ih.byte_eq]
    split_ifs <;> first | rfl | omega

/-- A full block's XOR is the same 64 bytes for every lane width (R182, R188). -/
theorem xorBlock_spec (w : LaneWidth) (r inp ks : List Byte) (o : Nat) (h : o + 64 ≤ r.length) :
    XoredAt r inp ks o 64 (xorBlock w.bytes r inp o ks) := by
  have : Config.blockBytes / w.bytes * w.bytes = 64 := by cases w <;> rfl
  have hs := xorLanes_spec w.bytes r inp ks o (Config.blockBytes / w.bytes) (by omega)
  rwa [this] at hs

/-- The tail's XOR (R183). -/
theorem xorTail_spec (n : Nat) (r inp ks : List Byte) (o : Nat) (h : o + n ≤ r.length) :
    XoredAt r inp ks o n (xorTail n r inp o ks) := by
  unfold xorTail
  induction n with
  | zero => exact ⟨by simp, fun i => by simp⟩
  | succ n ih =>
    have ih := ih (by omega)
    rw [List.range_succ, List.foldl_append, List.foldl_cons, List.foldl_nil]
    refine ⟨by rw [List.length_set, ih.length_eq], fun i => ?_⟩
    rw [List.getElem?_set, ih.length_eq, ih.byte_eq]
    by_cases hi : o + n = i
    · subst hi
      rw [if_pos rfl, if_pos (by omega), if_pos (by omega), Nat.add_sub_cancel_left]
    · rw [if_neg hi]
      split_ifs <;> first | rfl | omega

theorem byteAt_toList (k : KeyBlock) (i : Nat) (h : i < 64) : byteAt k.toList i = k[i] := by
  rw [byteAt_eq _ _ (by simpa using h)]
  simp

/-- After `n` full blocks, the first 64n bytes are input XOR keystream and S has made n block steps (R182). -/
theorem fullBlocks_spec (w : LaneWidth) (out inp : List Byte) (words : Words) (n : Nat) (h : 64 * n ≤ out.length) :
    ((List.range n).foldl (fullBlock w inp) ⟨out, words⟩).words = advance^[n] words ∧
    ((List.range n).foldl (fullBlock w inp) ⟨out, words⟩).r.length = out.length ∧
    ∀ i, ((List.range n).foldl (fullBlock w inp) ⟨out, words⟩).r[i]? =
      if i < 64 * n then some (byteAt inp i ^^^ keyByte words i) else out[i]? := by
  induction n with
  | zero => simp
  | succ n ih =>
    obtain ⟨hw, hl, hb⟩ := ih (by omega)
    rw [List.range_succ, List.foldl_append, List.foldl_cons, List.foldl_nil]
    generalize (List.range n).foldl (fullBlock w inp) ⟨out, words⟩ = run at hw hl hb
    have hx := xorBlock_spec w run.r inp (keystream run.words).toList (64 * n) (by omega)
    refine ⟨?_, ?_, fun i => ?_⟩
    · simp only [fullBlock, block, hw, Function.iterate_succ_apply']
    · exact hx.length_eq.trans hl
    · simp only [fullBlock, block]
      rw [hx.byte_eq, hb]
      by_cases h1 : 64 * n ≤ i ∧ i < 64 * n + 64
      · have e1 : i / 64 = n := by omega
        have e2 : i % 64 = i - 64 * n := by omega
        rw [if_pos h1, if_pos (by omega), byteAt_toList _ _ (by omega), keyByte_eq, hw]
        simp only [e1, e2]
      · rw [if_neg h1]
        split_ifs <;> first | rfl | omega

/-- The data path of COMBINE: for every lane width, the first `count` bytes are input XOR keystream, the others keep
their values, and S makes one block step per block begun (R181 to R185). -/
theorem combineData_spec (w : LaneWidth) (ops : CombineOperands) (words : Words) (h : ops.count ≤ ops.out.length) :
    (combineData w ops words).words = advance^[blocksFor ops.count] words ∧
    (combineData w ops words).r.length = ops.out.length ∧
    ∀ i, (combineData w ops words).r[i]? =
      if i < ops.count then some (byteAt ops.inp i ^^^ keyByte words i) else ops.out[i]? := by
  obtain ⟨hw, hl, hb⟩ := fullBlocks_spec w ops.out ops.inp words (ops.count / 64) (by omega)
  by_cases ht : ops.count % 64 = 0
  · have he : 64 * (ops.count / 64) = ops.count := by omega
    simp only [combineData, blocksFor, ht, if_true, Nat.add_zero]
    rw [he] at hb
    exact ⟨hw, hl, hb⟩
  · simp only [combineData, blocksFor, ht, if_false, block]
    generalize (List.range (ops.count / 64)).foldl (fullBlock w ops.inp) ⟨ops.out, words⟩ = run at hw hl hb
    have hx := xorTail_spec (ops.count % 64) run.r ops.inp (keystream run.words).toList (64 * (ops.count / 64))
      (by omega)
    refine ⟨?_, hx.length_eq.trans hl, fun i => ?_⟩
    · rw [hw, Function.iterate_succ_apply']
    · rw [hx.byte_eq, hb]
      by_cases h1 : 64 * (ops.count / 64) ≤ i ∧ i < 64 * (ops.count / 64) + ops.count % 64
      · have e1 : i / 64 = ops.count / 64 := by omega
        have e2 : i % 64 = i - 64 * (ops.count / 64) := by omega
        rw [if_pos h1, if_pos (by omega), byteAt_toList _ _ (by omega), keyByte_eq, hw]
        simp only [e1, e2]
      · rw [if_neg h1]
        split_ifs <;> first | rfl | omega

end Sys2Proof.Machine
end

