-- ==== Sys2Proof/Laws/Decode.lean ====
section
/-! SUPPORT. Laws/Decode.lean: the fields of a command word make up the word (spec 30_encoding.md R70), and when the
decoder gives a command. -/

namespace Sys2Proof

/-- OPC, WID and RES are all of a command word (R70). -/
theorem word_of_fields (cmd : Word) :
    cmd.toNat = (opc cmd).toNat + 256 * (wid cmd).toNat + 2048 * (res cmd).toNat := by
  have := cmd.isLt
  simp only [opc, wid, res, BitVec.extractLsb'_toNat, Nat.shiftRight_eq_div_pow]
  omega

/-- The COMBINE words are those with OPC = 2, RES = 0 and the WID they name (R72, R73). -/
theorem combine_word (cmd : Word) (hr : res cmd = 0) (ho : opc cmd = 0x02) : cmd.toNat = 2 + 256 * (wid cmd).toNat := by
  rw [word_of_fields, hr, ho]
  rfl

/-- A transaction that decodes to a command carries that command's word (R74, R82). -/
theorem decode_cmd {t : Transaction} {i : Instr} (h : decode t = .ok i) : t.cmd = commandWord i := by
  unfold decode at h
  split_ifs at h with h1 h2 h3
  · obtain rfl := Except.ok.inj h
    exact h1
  · obtain rfl := Except.ok.inj h
    exact h2
  · obtain rfl := Except.ok.inj h
    have hw := combine_word t.cmd h3.1 h3.2.1
    have hle : (wid t.cmd).toNat ≤ 4 := h3.2.2
    apply BitVec.eq_of_toNat_eq
    rw [hw]
    unfold combineOfWid
    split <;> simp_all [commandWord]
    omega

/-- A transaction decodes to a command exactly when its word is legal (R78). -/
theorem decode_isOk_iff (t : Transaction) : (∃ i, decode t = .ok i) ↔ t.cmd ∈ legalWords := by
  constructor
  · rintro ⟨i, h⟩
    rw [decode_cmd h]
    cases i <;> simp [commandWord, legalWords]
  · intro h
    simp only [legalWords, List.mem_cons, List.not_mem_nil, or_false] at h
    obtain ⟨cmd, a, b, x⟩ := t
    rcases h with rfl | rfl | rfl | rfl | rfl | rfl | rfl <;> simp [decode, res, opc, wid]

end Sys2Proof
end

