-- ==== Sys2Proof/Laws/Init.lean ====
section
/-! SUPPORT. Laws/Init.lean: what INIT writes and how it ends (spec 41_init.md R130 to R134). -/

namespace Sys2Proof.Machine

theorem setWords_getElem (vs : List Word) (w : Words) (i j : Nat) (hj : j < 16) :
    (setWords w i vs)[j] = if h : i ≤ j ∧ j < i + vs.length then vs[j - i]'(by omega) else w[j] := by
  induction vs generalizing w i with
  | nil =>
    simp [setWords]
  | cons v vs ih =>
    rw [setWords, ih]
    by_cases h1 : i + 1 ≤ j ∧ j < i + 1 + vs.length
    · have h2 : i ≤ j ∧ j < i + (v :: vs).length := by simp; omega
      rw [dif_pos h1, dif_pos h2]
      have : j - i = (j - (i + 1)) + 1 := by omega
      simp only [this, List.getElem_cons_succ]
    · rw [dif_neg h1]
      by_cases he : j = i
      · subst he
        simp
      · have h2 : ¬(i ≤ j ∧ j < i + (v :: vs).length) := by simp; omega
        rw [dif_neg h2]
        simp [Ne.symm he]

/-- The 16 words of a successful INIT (R132). -/
theorem init_words_getElem (k n : List Byte) (ctr : Word) (w : Words) (j : Nat) (hj : j < 16) :
    (nonceSetup n ctr (keySetup k w))[j] =
      if h : j < 4 then sigma[j]
      else if j < 12 then unpackLe k (4 * (j - 4))
      else if j = 12 then ctr
      else unpackLe n (4 * (j - 13)) := by
  simp only [nonceSetup, keySetup, setWords_getElem, wordsLe_length, wordsLe_getElem, Vector.getElem_set,
    Vector.length_toList]
  have : j < 4 ∨ (4 ≤ j ∧ j < 12) ∨ j = 12 ∨ (13 ≤ j) := by omega
  rcases this with h | h | h | h
  · rw [dif_neg (by omega), if_neg (by omega), dif_neg (by omega), dif_pos (by omega), dif_pos h]
    simp
  · rw [dif_neg (by omega), if_neg (by omega), dif_pos (by omega), dif_neg (by omega), if_pos (by omega)]
  · subst h
    rfl
  · rw [dif_pos (by omega), dif_neg (by omega), if_neg (by omega), if_neg (by omega)]

/-- The words of a successful INIT depend on its operands alone (R133). -/
theorem init_words_congr (k n : List Byte) (ctr : Word) (v w : Words) :
    nonceSetup n ctr (keySetup k v) = nonceSetup n ctr (keySetup k w) := by
  apply Vector.ext
  intro j hj
  rw [init_words_getElem _ _ _ _ _ hj, init_words_getElem _ _ _ _ _ hj]

/-- Everything INIT can do: one code of R251 for each case of its operands, tested in this order (R130, R254). -/
theorem execInit_eq (key nonce : Buf) (ctr : Word) (s : State) :
    execInit key nonce ctr s =
      match key, nonce with
      | .absent, _ => respond .invalidKeyLengthNull .absent s.endCipher
      | .present k, .absent =>
        if k.length = 32 then respond .invalidNonceLength .absent s.endCipher
        else respond .invalidKeyLength .absent s.endCipher
      | .present k, .present n =>
        if k.length = 32 then
          if n.length = 12 then
            respond .ok .absent { s with words := nonceSetup n ctr (keySetup k zeroWords), life := .ready }
          else respond .invalidNonceLength .absent s.endCipher
        else respond .invalidKeyLength .absent s.endCipher := by
  cases key with
  | absent => rfl
  | present k =>
    by_cases hk : k.length = 32
    · cases nonce with
      | absent => simp [execInit, hk, State.endCipher]
      | present n =>
        by_cases hn : n.length = 12 <;> simp [execInit, hk, hn, State.endCipher]
    · cases nonce <;> simp [execInit, hk]

/-- Every INIT ends with a response. -/
theorem execInit_next (key nonce : Buf) (ctr : Word) (s : State) : ∃ t, execInit key nonce ctr s = .next t := by
  rw [execInit_eq]
  unfold respond
  split <;> (try split_ifs) <;> exact ⟨_, rfl⟩

end Sys2Proof.Machine
end

