-- ==== Sys2Proof/Laws/Exec.lean ====
section
/-! SUPPORT. Laws/Exec.lean: everything a command can do, said once (spec 43_combine.md R180, 45_lifecycle.md R230,
30_encoding.md R74): proofs cite these and do not unfold the meanings. -/

namespace Sys2Proof.Machine

theorem respond_eq (c : Code) (r : Buf) (s : State) :
    respond c r s = .next { s with lastCode := c.byte, response := some ⟨c.byte, r⟩ } := rfl

theorem raise_eq (c : Code) (out : Buf) (s : State) :
    raise c out s = .next { s with lastCode := c.byte, response := some ⟨c.byte, out⟩ } := rfl

theorem code_le (c : Code) : c.byte.toNat ≤ 9 := by cases c <;> decide

/-- The count is X read as two's complement (R76). -/
theorem countOf_eq_toInt (x : Word) : countOf x = x.toInt := by
  unfold countOf
  rw [BitVec.toInt_eq_msb_cond, BitVec.msb_eq_getLsbD_last]
  norm_num

/-- The operands of a COMBINE pass every check exactly in the case R180 executes. -/
theorem combineOperands_eq_ok {life : Life} {out inp : Buf} {x : Word} {ops : CombineOperands} :
    combineOperands life out inp x = .ok ops ↔
      life = .ready ∧ out = .present ops.out ∧ inp = .present ops.inp ∧ countOf x = ops.count ∧
        ops.count ≤ ops.inp.length ∧ ops.count ≤ ops.out.length := by
  obtain ⟨a, b, n⟩ := ops
  cases life <;> cases out <;> cases inp <;> simp only [combineOperands, reduceCtorEq, false_and, and_false, true_and,
    Buf.present.injEq]
  rename_i a' b'
  split_ifs with h1 h2
  · simp only [false_iff]
    rintro ⟨rfl, rfl, hc, h, -⟩
    omega
  · simp only [false_iff]
    rintro ⟨rfl, rfl, hc, -, h⟩
    omega
  · simp only [Except.ok.injEq, CombineOperands.mk.injEq]
    constructor
    · rintro ⟨rfl, rfl, rfl⟩
      exact ⟨rfl, rfl, by omega, by omega, by omega⟩
    · rintro ⟨rfl, rfl, hc, -, -⟩
      exact ⟨rfl, rfl, by omega⟩

/-- A COMBINE that fails a check writes nothing but LAST_CODE (R180, R253). -/
theorem combineAt_error {w : LaneWidth} {out inp : Buf} {x : Word} {s : State} {c : Code}
    (h : combineOperands s.life out inp x = .error c) : combineAt w out inp x s = raise c out s := by
  simp only [combineAt, h]

/-- A COMBINE that passes its checks (R180). -/
theorem combineAt_ok {w : LaneWidth} {out inp : Buf} {x : Word} {s : State} {ops : CombineOperands}
    (h : combineOperands s.life out inp x = .ok ops) :
    combineAt w out inp x s =
      respond .ok (.present (combineData w ops s.words).r)
        { (if ops.count = 0 then s else s.leaveHidden) with words := (combineData w ops s.words).words } := by
  simp only [combineAt, h]

/-- Everything a COMBINE of any width can do to the parts of the state the spec names. -/
theorem combineAt_cases (w : LaneWidth) (out inp : Buf) (x : Word) (s : State) :
    (∃ c, combineOperands s.life out inp x = .error c ∧ combineAt w out inp x s = raise c out s) ∨
    (∃ ops t, combineOperands s.life out inp x = .ok ops ∧ combineAt w out inp x s = .next t ∧
      t.words = advance^[blocksFor ops.count] s.words ∧ t.life = s.life ∧ t.lastCode = 0x00 ∧
      t.capAuto = s.capAuto ∧ t.queue = s.queue ∧
      ∃ r : List Byte, t.response = some ⟨0x00, .present r⟩ ∧ r.length = ops.out.length ∧
        ∀ i, r[i]? = if i < ops.count then some (byteAt ops.inp i ^^^ keyByte s.words i) else ops.out[i]?) := by
  cases h : combineOperands s.life out inp x with
  | error c => exact .inl ⟨c, rfl, combineAt_error h⟩
  | ok ops =>
    obtain ⟨hw, hl, hb⟩ := combineData_spec w ops s.words (combineOperands_eq_ok.mp h).2.2.2.2.2
    refine .inr ⟨ops, _, rfl, (combineAt_ok h).trans (respond_eq _ _ _), hw, ?_, rfl, ?_, ?_, _, rfl, hl, hb⟩ <;>
      split_ifs <;> rfl

/-- Everything DISPOSE does (R230). -/
theorem execDispose_eq (s : State) :
    execDispose s = respond .ok .absent (if s.life = .ready then s.endCipher else s) := by
  cases h : s.life <;> simp [execDispose, h]

theorem exec_init (k n : Buf) (c : Word) (s : State) : exec (.init k n c) s = execInit k n c s := rfl

theorem exec_dispose (s : State) : exec .dispose s = execDispose s := rfl

/-- A COMBINE form runs the data path at some lane width. -/
def formWidth (s : State) : Instr → LaneWidth
  | .combineB1 _ _ _ => .b1
  | .combineV16 _ _ _ => .v16
  | .combineV32 _ _ _ => .v32
  | .combineV64 _ _ _ => .v64
  | _ => s.capAuto

/-- Everything a command can be: an INIT, a COMBINE at some width, or a DISPOSE. -/
theorem exec_cases (i : Instr) (s : State) :
    (∃ k n c, i = .init k n c ∧ exec i s = execInit k n c s) ∨
    (∃ o b x, (i = .combine o b x ∨ i = .combineB1 o b x ∨ i = .combineV16 o b x ∨ i = .combineV32 o b x ∨
      i = .combineV64 o b x) ∧ exec i s = combineAt (formWidth s i) o b x s) ∨
    (i = .dispose ∧ exec i s = execDispose s) := by
  cases i with
  | init k n c => exact .inl ⟨k, n, c, rfl, rfl⟩
  | combine o b x => exact .inr (.inl ⟨o, b, x, by simp, rfl⟩)
  | combineB1 o b x => exact .inr (.inl ⟨o, b, x, by simp, rfl⟩)
  | combineV16 o b x => exact .inr (.inl ⟨o, b, x, by simp, rfl⟩)
  | combineV32 o b x => exact .inr (.inl ⟨o, b, x, by simp, rfl⟩)
  | combineV64 o b x => exact .inr (.inl ⟨o, b, x, by simp, rfl⟩)
  | dispose => exact .inr (.inr ⟨rfl, rfl⟩)

/-- Everything one transaction at the port can do: refused when too long, illegal, or a command (R74, R77). -/
theorem issue_cases (t : Transaction) (s : State) :
    (t.wf = false ∧ issue t s = .refused .bufferTooLong) ∨
    (t.wf = true ∧ (∃ e, decode t = .error e) ∧ issue t s = raise .illegalCommand t.a s) ∨
    (t.wf = true ∧ ∃ i, decode t = .ok i ∧ issue t s = exec i s) := by
  unfold issue illegalCommand
  cases hw : t.wf
  · simp
  · cases hd : decode t <;> simp

end Sys2Proof.Machine
end

