-- ==== Sys2Proof/Laws/Outcomes.lean ====
section
/-! SUPPORT. Laws/Outcomes.lean: inversion lemmas, one per way a command can end: from a next state, what it is. -/

namespace Sys2Proof.Machine

/-- Each of the five COMBINE commands runs the one meaning at some lane width. -/
theorem exec_combineForm {out inp : Buf} {x : Word} {i : Instr} (h : i ∈ combineForms out inp x) (s : State) :
    ∃ w, exec i s = combineAt w out inp x s := by
  simp only [combineForms, List.mem_cons, List.not_mem_nil, or_false] at h
  rcases h with rfl | rfl | rfl | rfl | rfl <;> exact ⟨_, rfl⟩

theorem combineForm_ne {out inp : Buf} {x : Word} {i : Instr} (h : i ∈ combineForms out inp x) :
    i ≠ .dispose ∧ ∀ k n c, i ≠ .init k n c := by
  simp only [combineForms, List.mem_cons, List.not_mem_nil, or_false] at h
  rcases h with rfl | rfl | rfl | rfl | rfl <;> simp

/-- The code of a COMBINE that fails, by the lifecycle state (R251). -/
theorem combineOperands_error {life : Life} {out inp : Buf} {x : Word} {c : Code}
    (h : combineOperands life out inp x = .error c) :
    (life = .disposed ∧ c = .useAfterDispose) ∨
    (life = .ready ∧ (c = .nullInput ∨ c = .nullOutput ∨ c = .invalidLength ∨ c = .bufferTooSmall)) := by
  unfold combineOperands at h
  split at h <;> (try split_ifs at h) <;> simp_all

/-- A command draws its free values as the CORE it runs on (log 27). -/
theorem exec_draws_core {i : Instr} {s t : State} (h : exec i s = .next t) : t.draws.core = s.draws.core := by
  rcases exec_cases i s with ⟨k, n, c, rfl, he⟩ | ⟨o, b, x, -, he⟩ | ⟨rfl, he⟩
  · rw [he, execInit_eq] at h
    split at h <;> (try split_ifs at h) <;> rw [respond_eq] at h <;> obtain rfl := Host.Outcome.next.inj h <;> rfl
  · rw [he] at h
    cases hc : combineOperands s.life o b x with
    | error c =>
      rw [combineAt_error hc, raise_eq] at h
      obtain rfl := Host.Outcome.next.inj h
      rfl
    | ok ops =>
      rw [combineAt_ok hc, respond_eq] at h
      obtain rfl := Host.Outcome.next.inj h
      dsimp only
      split_ifs <;> rfl
  · rw [he, execDispose_eq, respond_eq] at h
    obtain rfl := Host.Outcome.next.inj h
    dsimp only
    split_ifs <;> rfl

/-- How an INIT ends: a new cipher, or S zero and DISPOSED with one of its three codes (R132, R134). -/
theorem execInit_inv {k n : Buf} {c : Word} {s u : State} (h : execInit k n c s = .next u) :
    (u.lastCode = 0x00 ∧ u.life = .ready ∧ u.response = some ⟨0x00, .absent⟩ ∧
      (∃ kb nb, u.words = nonceSetup nb c (keySetup kb zeroWords)) ∧
      u = { s with words := u.words, life := u.life, lastCode := u.lastCode, response := u.response }) ∨
    (u.lastCode ∈ [0x01, 0x02, (0x03 : Byte)] ∧
      u = { s with words := zeroWords, life := .disposed, lastCode := u.lastCode,
                   response := some ⟨u.lastCode, .absent⟩ }) := by
  rw [execInit_eq] at h
  split at h <;> (try split_ifs at h) <;> rw [respond_eq] at h <;> obtain rfl := Host.Outcome.next.inj h
  · exact .inr ⟨by simp [Code.byte], rfl⟩
  · exact .inr ⟨by simp [Code.byte], rfl⟩
  · exact .inr ⟨by simp [Code.byte], rfl⟩
  · exact .inl ⟨rfl, rfl, rfl, ⟨_, _, rfl⟩, rfl⟩
  · exact .inr ⟨by simp [Code.byte], rfl⟩
  · exact .inr ⟨by simp [Code.byte], rfl⟩

/-- How a COMBINE ends: a status return, or success on a READY CORE (R180). -/
theorem combineAt_inv {w : LaneWidth} {out inp : Buf} {x : Word} {s u : State} (h : combineAt w out inp x s = .next u) :
    (∃ c : Code, combineOperands s.life out inp x = .error c ∧
      u = { s with lastCode := c.byte, response := some ⟨c.byte, out⟩ }) ∨
    (s.life = .ready ∧ u.life = .ready ∧ u.lastCode = 0x00 ∧ (∃ n, u.words = advance^[n] s.words) ∧
      u.capAuto = s.capAuto ∧ u.queue = s.queue ∧ ∃ r, u.response = some ⟨0x00, .present r⟩) := by
  rcases combineAt_cases w out inp x s with ⟨c, hc, hr⟩ | ⟨ops, t, ho, ht, hw, hl, hlc, hcap, hq, r, h1, -, -⟩
  · rw [hr, raise_eq] at h
    obtain rfl := Host.Outcome.next.inj h
    exact .inl ⟨c, hc, rfl⟩
  · rw [ht] at h
    obtain rfl := Host.Outcome.next.inj h
    have hready := (combineOperands_eq_ok.mp ho).1
    exact .inr ⟨hready, hl.trans hready, hlc, ⟨_, hw⟩, hcap, hq, r, h1⟩

/-- How a COMBINE whose operands pass ends, in full (R180 to R185). -/
theorem combineAt_success {out inp : List Byte} {x : Word} {n : Nat} {s : State} (w : LaneWidth) (hr : s.life = .ready)
    (hx : x.toInt = n) (hi : n ≤ inp.length) (ho : n ≤ out.length) :
    ∃ t r, combineAt w (.present out) (.present inp) x s = .next t ∧ t.words = advance^[blocksFor n] s.words ∧
      t.life = s.life ∧ t.lastCode = 0x00 ∧ t.capAuto = s.capAuto ∧ t.queue = s.queue ∧
      t.response = some ⟨0x00, .present r⟩ ∧ r.length = out.length ∧
      ∀ i, r[i]? = if i < n then some (byteAt inp i ^^^ keyByte s.words i) else out[i]? := by
  have hok : combineOperands s.life (.present out) (.present inp) x = .ok ⟨out, inp, n⟩ := by
    rw [combineOperands_eq_ok]
    exact ⟨hr, rfl, rfl, by rw [countOf_eq_toInt, hx], hi, ho⟩
  rcases combineAt_cases w (.present out) (.present inp) x s with
    ⟨c, hc, -⟩ | ⟨ops, t, ho', ht, hw, hl, hc, hcap, hq, r, h1, h2, h3⟩
  · rw [hok] at hc
    cases hc
  · rw [hok] at ho'
    obtain rfl := Except.ok.inj ho'
    exact ⟨t, r, ht, hw, hl, hc, hcap, hq, h1, h2, h3⟩

/-- How one transaction at the port ends when it does: illegal, or one of the three kinds of command. -/
theorem issue_inv {t : Transaction} {s u : State} (h : issue t s = .next u) :
    ((∃ e, decode t = .error e) ∧ u = { s with lastCode := 0x09, response := some ⟨0x09, t.a⟩ }) ∨
    (∃ k n c, decode t = .ok (.init k n c) ∧ execInit k n c s = .next u) ∨
    (∃ out inp x i w, i ∈ combineForms out inp x ∧ decode t = .ok i ∧ combineAt w out inp x s = .next u) ∨
    (decode t = .ok .dispose ∧ execDispose s = .next u) := by
  rcases issue_cases t s with ⟨-, hi⟩ | ⟨-, he, hi⟩ | ⟨-, i, hd, hi⟩
  · rw [hi] at h
    cases h
  · rw [hi, raise_eq] at h
    obtain rfl := Host.Outcome.next.inj h
    exact .inl ⟨he, rfl⟩
  · rw [hi] at h
    rcases exec_cases i s with ⟨k, n, c, rfl, he⟩ | ⟨o, b, x, hf, he⟩ | ⟨rfl, he⟩
    · exact .inr (.inl ⟨k, n, c, hd, he ▸ h⟩)
    · exact .inr (.inr (.inl ⟨o, b, x, i, _, by simpa [combineForms] using hf, hd, he ▸ h⟩))
    · exact .inr (.inr (.inr ⟨hd, he ▸ h⟩))

/-- A step ends in a next state in one of these ways (R280, R281). -/
theorem step_inv {s t : State} (h : step s = .next t) :
    (s.queue = [] ∧ t = s) ∨
    (∃ c rest, s.queue = .command c :: rest ∧ issue c { s with queue := rest } = .next t) ∨
    (∃ rest, s.queue = .reset :: rest ∧ t = { s.takeReset with queue := rest, response := none }) ∨
    (∃ c rest, s.queue = .resetDuring c :: rest ∧
      (t = { State.takeReset { s with queue := rest, draws := s.draws.next } with response := none } ∨
        ∃ u, issue c { s with queue := rest, draws := s.draws.next } = .next u ∧ t = u.takeReset)) := by
  unfold step serve at h
  split at h
  · next hq => exact .inl ⟨hq, (Host.Outcome.next.inj h).symm⟩
  · next c rest hq => exact .inr (.inl ⟨c, rest, hq, h⟩)
  · next rest hq => exact .inr (.inr (.inl ⟨rest, hq, (Host.Outcome.next.inj h).symm⟩))
  · next c rest hq =>
    refine .inr (.inr (.inr ⟨c, rest, hq, ?_⟩))
    unfold issueWithReset at h
    simp only at h
    split_ifs at h
    · exact .inl (Host.Outcome.next.inj h).symm
    · obtain ⟨u, hu, ht⟩ := andThen_eq_next.mp h
      exact .inr ⟨u, hu, (Host.Outcome.next.inj ht).symm⟩

/-- Only an admissible transaction gets an answer (R77). -/
theorem issue_wf {t : Transaction} {s u : State} (h : issue t s = .next u) : t.wf = true := by
  rcases issue_cases t s with ⟨-, h'⟩ | ⟨hw, -⟩ | ⟨hw, -⟩
  · rw [h'] at h; cases h
  · exact hw
  · exact hw

/-- No transaction writes CAP or what else the port holds (R28, R55). -/
theorem issue_frame {t : Transaction} {s u : State} (h : issue t s = .next u) : u.capAuto = s.capAuto ∧ u.queue = s.queue := by
  rcases issue_inv h with ⟨he, rfl⟩ | ⟨k, n, c, hd, hi⟩ | ⟨o, b, x, i, w, hm, hd, hi⟩ | ⟨hd, hi⟩
  · exact ⟨rfl, rfl⟩
  · rcases execInit_inv hi with ⟨-, -, -, -, h2⟩ | ⟨-, h2⟩ <;> rw [h2] <;> exact ⟨rfl, rfl⟩
  · rcases combineAt_inv hi with ⟨c, hc, rfl⟩ | ⟨-, -, -, -, h1, h2, -⟩
    · exact ⟨rfl, rfl⟩
    · exact ⟨h1, h2⟩
  · rw [execDispose_eq, respond_eq] at hi
    obtain rfl := Host.Outcome.next.inj hi
    exact ⟨by split_ifs <;> rfl, by split_ifs <;> rfl⟩

/-- What a transaction answers and leaves in S, LIFE and LAST_CODE depends on S and LIFE alone (R195). -/
theorem issue_congr {t : Transaction} {s s' u v : State} (hw : s.words = s'.words) (hl : s.life = s'.life)
    (h : issue t s = .next u) (hv : issue t s' = .next v) :
    v.response = u.response ∧ v.words = u.words ∧ v.life = u.life ∧ v.lastCode = u.lastCode := by
  rcases issue_cases t s with ⟨hf, -⟩ | ⟨hwf, he, hi⟩ | ⟨hwf, i, hd, hi⟩
  · rw [issue_wf h] at hf; cases hf
  · rcases issue_cases t s' with ⟨hf, -⟩ | ⟨hwf, he', hi'⟩ | ⟨hwf, i, hd, hi'⟩
    · rw [issue_wf h] at hf; cases hf
    · rw [hi, raise_eq] at h; rw [hi', raise_eq] at hv
      obtain rfl := Host.Outcome.next.inj h
      obtain rfl := Host.Outcome.next.inj hv
      exact ⟨rfl, hw.symm, hl.symm, rfl⟩
    · obtain ⟨e, he⟩ := he; rw [he] at hd; cases hd
  · have hi' : issue t s' = exec i s' := by simp [issue, hwf, hd]
    rw [hi] at h; rw [hi'] at hv
    rcases exec_cases i s with ⟨k, n, c, rfl, he⟩ | ⟨o, b, x, hf, he⟩ | ⟨rfl, he⟩
    · rw [exec_init, execInit_eq] at h hv
      split at h <;> (try split_ifs at h) <;> rw [respond_eq] at h <;> obtain rfl := Host.Outcome.next.inj h <;>
       simp_all [respond_eq] <;> subst hv <;> simp_all
    · have hm : i ∈ combineForms o b x := by simpa [combineForms] using hf
      obtain ⟨w, hw1⟩ := exec_combineForm hm s
      obtain ⟨w', hw2⟩ := exec_combineForm hm s'
      rw [hw1] at h; rw [hw2] at hv
      rcases combineAt_cases w o b x s with ⟨c, hc, hr⟩ | ⟨ops, t1, ho, ht, hwd, hlf, hlc, hcap, hq, r, h1, h2, h3⟩
      · rw [hr, raise_eq] at h
        rw [combineAt_error (hl ▸ hc), raise_eq] at hv
        obtain rfl := Host.Outcome.next.inj h
        obtain rfl := Host.Outcome.next.inj hv
        exact ⟨rfl, hw.symm, hl.symm, rfl⟩
      · rcases combineAt_cases w' o b x s' with ⟨c, hc, hr⟩ | ⟨ops', t', ho', ht', hwd', hl', hlc', hcap', hq', r', h1', h2', h3'⟩
        · rw [← hl, ho] at hc; cases hc
        · rw [← hl, ho] at ho'; obtain rfl := Except.ok.inj ho'
          have : r = r' := by apply List.ext_getElem?; intro i; rw [h3, h3', hw]
          rw [ht] at h; rw [ht'] at hv
          obtain rfl := Host.Outcome.next.inj h
          obtain rfl := Host.Outcome.next.inj hv
          exact ⟨by rw [h1, h1', this], by rw [hwd, hwd', hw], by rw [hlf, hl', hl], by rw [hlc, hlc']⟩
    · rw [exec_dispose, execDispose_eq, respond_eq] at h hv
      obtain rfl := Host.Outcome.next.inj h
      obtain rfl := Host.Outcome.next.inj hv
      rw [← hl]
      refine ⟨rfl, ?_, ?_, rfl⟩ <;> split_ifs <;> simp_all

end Sys2Proof.Machine
end

