-- ==== Sys2Proof/Laws/Host.lean ====
section
/-! SUPPORT. Laws/Host.lean: what the HOST procedures are built from (spec 44_streaming.md R210 to R219): one command,
one round of a stream, and one scalar of UTF-8. -/

namespace Sys2Proof.Machine

/-- An admissible command presented at the port runs as itself (R74). -/
theorem issue_encode {i : Instr} (hw : i.wf = true) (s : State) : issue (encode i) s = exec i s := by
  have h1 : decode (encode i) = .ok i := by
    cases i <;> simp [decode, encode, commandWord, res, opc, wid, combineOfWid]
  have h2 : (encode i).wf = true := by rw [← hw]; cases i <;> simp [encode, Transaction.wf, Instr.wf, Buf.wf]
  simp [issue, h1, h2]

theorem command_next {i : Instr} {s t : State} {r : Response} (hw : i.wf = true) (h : exec i s = .next t)
    (hr : t.response = some r) : command i s = .next (t, r) := by
  simp [command, issue_encode hw, h, hr]

theorem toInt_ofNat32 {n : Nat} (h : n < 2 ^ 31) : (BitVec.ofNat 32 n).toInt = n := by
  rw [BitVec.toInt_eq_toNat_of_lt] <;> simp <;> omega

theorem statusReady_iff (s : State) : s.statusReady = true ↔ s.life = .ready := by
  unfold State.statusReady State.status
  cases h : s.life <;> simp [Life.bit]

/-- What a COMBINE of `bs` makes of it in a state whose words are `w` (R186). -/
def cipherOf (w : Words) (bs : List Byte) : List Byte :=
  (List.range bs.length).map fun p => byteAt bs p ^^^ keyByte w p

theorem cipherOf_length (w : Words) (bs : List Byte) : (cipherOf w bs).length = bs.length := by simp [cipherOf]

theorem cipherOf_getElem? (w : Words) (bs : List Byte) (p : Nat) :
    (cipherOf w bs)[p]? = if p < bs.length then some (byteAt bs p ^^^ keyByte w p) else none := by
  unfold cipherOf
  split
  · next h => simp [h]
  · next h => simp; omega

/-- A stream between two rounds: the CORE live, the chunk buffers of the chunk size, waiting for its read. -/
structure Task.AtRead (t : Task) : Prop where
  reading : t.phase = .reading
  live : t.core.life = .ready
  chunk_le : t.chunk ≤ 2 ^ 31 - 1
  inbuf_length : t.inbuf.length = t.chunk
  outbuf_length : t.outbuf.length = t.chunk

/-- A read that answered a chunk: the CORE has combined exactly its bytes (R210). -/
theorem onRead_bytes {t : Task} {bs : List Byte} (ht : t.AtRead) (hb : bs ≠ []) (hl : bs.length ≤ t.chunk) :
    ∃ core r, onRead (.bytes bs) t = .next { t with
        core, inbuf := bs ++ t.inbuf.drop bs.length, outbuf := r, phase := .writing bs.length } ∧
      core.life = .ready ∧ core.words = advance^[blocksFor bs.length] t.core.words ∧ r.length = t.chunk ∧
      r.take bs.length = cipherOf t.core.words bs := by
  have hc := ht.chunk_le
  have hin : (bs ++ t.inbuf.drop bs.length).length = t.chunk := by
    simp [ht.inbuf_length]; omega
  have hx : (BitVec.ofNat 32 bs.length).toInt = bs.length := toInt_ofNat32 (by omega)
  obtain ⟨u, r, hu, hw, hlf, -, -, -, hr, hrl, hrb⟩ := combineAt_success (out := t.outbuf)
    (inp := bs ++ t.inbuf.drop bs.length) t.core.capAuto ht.live hx (by omega) (by rw [ht.outbuf_length]; exact hl)
  have hcmd := command_next (i := .combine (.present t.outbuf) (.present (bs ++ t.inbuf.drop bs.length))
    (BitVec.ofNat 32 bs.length)) (s := t.core) (by simp [Instr.wf, Buf.wf, Config.maxBuf, ht.outbuf_length] at hin ⊢; omega)
    hu hr
  refine ⟨u, r, ?_, hlf.trans ht.live, hw, hrl.trans ht.outbuf_length, ?_⟩
  · simp only [onRead]
    rw [if_neg (by omega), if_neg hb, hcmd]
    rfl
  · apply List.ext_getElem?
    intro p
    rw [cipherOf_getElem?]
    by_cases hp : p < bs.length
    · rw [if_pos hp, List.getElem?_take_of_lt hp, hrb, if_pos hp]
      simp [byteAt, List.getD_eq_getElem?_getD, List.getElem?_append_left hp]
    · rw [if_neg hp, List.getElem?_eq_none (by rw [List.length_take]; omega)]

/-- One round of a stream that owns the CORE: a chunk read, combined and written (R210). -/
theorem streamLoop_round {t : Task} {bs : List Byte} (ht : t.AtRead) (hb : bs ≠ []) (hl : bs.length ≤ t.chunk) :
    ∃ t' : Task, t'.AtRead ∧ t'.chunk = t.chunk ∧ t'.core.words = advance^[blocksFor bs.length] t.core.words ∧
      t'.sink = t.sink ++ cipherOf t.core.words bs ∧ ∀ reads writes,
        streamLoop (⟨[], .bytes bs⟩ :: reads) (⟨[], .done⟩ :: writes) t = streamLoop reads writes t' := by
  obtain ⟨core, r, h, hlf, hw, hrl, hrt⟩ := onRead_bytes ht hb hl
  have hin : (bs ++ t.inbuf.drop bs.length).length = t.chunk := by
    simp [ht.inbuf_length]; omega
  refine ⟨{ t with
    core, inbuf := bs ++ t.inbuf.drop bs.length, outbuf := r, sink := t.sink ++ r.take bs.length, phase := .reading },
    ⟨rfl, hlf, ht.chunk_le, hin, hrl⟩, rfl, hw, by rw [hrt], fun reads writes => ?_⟩
  have ho : onOthers [] t = .next t := rfl
  rw [streamLoop, ho, andThen_next, h, andThen_next]
  rfl

/-- A chunk read on a disposed CORE: the COMBINE fails and the stream ends with its code (R215). -/
theorem onRead_disposed {t : Task} {bs : List Byte} (hd : t.core.life = .disposed) (hc : t.chunk ≤ 2 ^ 31 - 1)
    (hi : t.inbuf.length = t.chunk) (ho : t.outbuf.length = t.chunk) (hb : bs ≠ []) (hl : bs.length ≤ t.chunk) :
    onRead (.bytes bs) t = .next { t with
      core := { t.core with lastCode := 0x08, response := some ⟨0x08, .present t.outbuf⟩ }
      inbuf := bs ++ t.inbuf.drop bs.length, phase := .ended (.failed 0x08) } := by
  have hin : (bs ++ t.inbuf.drop bs.length).length = t.chunk := by
    simp [hi]; omega
  have hx : exec (.combine (.present t.outbuf) (.present (bs ++ t.inbuf.drop bs.length)) (BitVec.ofNat 32 bs.length))
      t.core = .next { t.core with lastCode := 0x08, response := some ⟨0x08, .present t.outbuf⟩ } := by
    show combineAt _ _ _ _ _ = _
    rw [combineAt_error (c := .useAfterDispose) (by rw [hd]; rfl)]
    rfl
  simp only [onRead]
  rw [if_neg (by omega), if_neg hb, command_next (by simp [Instr.wf, Buf.wf, Config.maxBuf] at hin ⊢; omega) hx rfl]
  rfl

/-- A DISPOSE by another agent while a stream waits (R221, R285). -/
theorem onOthers_dispose {t : Task} {a b : Buf} (x : Word) (ha : a.wf = true) (hb : b.wf = true) :
    ∃ core : State, onOthers [⟨0x00000003, a, b, x⟩] t = .next { t with core } ∧ core.life = .disposed := by
  have hw : (Transaction.mk 0x00000003 a b x).wf = true := by simp [Transaction.wf, ha, hb]
  have hi : issue ⟨0x00000003, a, b, x⟩ t.core = execDispose t.core := by
    rw [issue, if_pos hw]
    rfl
  rw [execDispose_eq, respond_eq] at hi
  refine ⟨_, by show andThen (andThen (issue _ _) (performOthers [])) _ = _; rw [hi]; rfl, ?_⟩
  cases h : t.core.life <;> simp [h]

/-- What a stream makes of its chunks, one COMBINE each (R212). -/
def cipherChunks (w : Words) : List (List Byte) → List Byte
  | [] => []
  | b :: bs => cipherOf w b ++ cipherChunks (advance^[blocksFor b.length] w) bs

theorem cipherChunks_length (w : Words) (chunks : List (List Byte)) :
    (cipherChunks w chunks).length = chunks.flatten.length := by
  induction chunks generalizing w with
  | nil => rfl
  | cons b bs ih => simp [cipherChunks, cipherOf_length, ih]

/-- Whole blocks first, then the rest, is one COMBINE (R187). -/
theorem cipherOf_append (w : Words) (b rest : List Byte) (h : b.length % 64 = 0) :
    cipherOf w b ++ cipherOf (advance^[blocksFor b.length] w) rest = cipherOf w (b ++ rest) := by
  have hbl : blocksFor b.length = b.length / 64 := by simp [blocksFor, h]
  apply List.ext_getElem?
  intro p
  rw [hbl]
  by_cases hp : p < b.length
  · rw [List.getElem?_append_left (by rw [cipherOf_length]; exact hp), cipherOf_getElem?, cipherOf_getElem?,
      if_pos hp, if_pos (by rw [List.length_append]; omega)]
    simp [byteAt, List.getD_eq_getElem?_getD, List.getElem?_append_left hp]
  · rw [List.getElem?_append_right (by rw [cipherOf_length]; omega), cipherOf_length, cipherOf_getElem?,
      cipherOf_getElem?]
    have e : p - b.length < rest.length ↔ p < (b ++ rest).length := by
      rw [List.length_append]; omega
    simp only [e]
    split
    · have hk : keyByte (advance^[b.length / 64] w) (p - b.length) = keyByte w p := by
        rw [keyByte_eq, keyByte_eq, ← Function.iterate_add_apply]
        have e1 : (p - b.length) / 64 + b.length / 64 = p / 64 := by omega
        have e2 : (p - b.length) % 64 = p % 64 := by omega
        simp only [e1, e2]
      rw [hk]
      simp [byteAt, List.getD_eq_getElem?_getD, List.getElem?_append_right (by omega : b.length ≤ p)]
    · rfl

/-- When every chunk but the last is whole blocks, the chunks are one COMBINE (R212). -/
theorem cipherChunks_wholeBlocks (w : Words) (chunks : List (List Byte))
    (h : ∀ b ∈ chunks.dropLast, b.length % 64 = 0) : cipherChunks w chunks = cipherOf w chunks.flatten := by
  induction chunks generalizing w with
  | nil => rfl
  | cons b bs ih =>
    cases bs with
    | nil => simp [cipherChunks]
    | cons c cs =>
      rw [cipherChunks, ih _ (fun d hd => h d (by simp at hd ⊢; exact .inr hd)), cipherOf_append _ _ _ (h b (by simp))]
      rfl

/-- XOR with the keystream of the same state undoes itself (R193). -/
theorem cipherOf_cipherOf (w : Words) (bs : List Byte) : cipherOf w (cipherOf w bs) = bs := by
  apply List.ext_getElem?
  intro p
  rw [cipherOf_getElem?, cipherOf_length]
  split
  · next h =>
    simp only [byteAt, List.getD_eq_getElem?_getD, cipherOf_getElem?, h, if_true, Option.getD_some, BitVec.xor_assoc]
    simp [h]
  · next h => rw [List.getElem?_eq_none (by omega)]

/-- The rounds of a stream that owns the CORE, one after another (R212). -/
theorem streamLoop_rounds (chunks : List (List Byte)) {t : Task} (ht : t.AtRead)
    (hb : ∀ b ∈ chunks, b ≠ [] ∧ b.length ≤ t.chunk) :
    ∃ t' : Task, t'.AtRead ∧ t'.chunk = t.chunk ∧
      t'.core.words = advance^[(chunks.map fun b => blocksFor b.length).sum] t.core.words ∧
      t'.sink = t.sink ++ cipherChunks t.core.words chunks ∧ ∀ reads writes,
      streamLoop (chunks.map (fun b => ⟨[], .bytes b⟩) ++ reads) (chunks.map (fun _ => ⟨[], .done⟩) ++ writes) t =
        streamLoop reads writes t' := by
  induction chunks generalizing t with
  | nil => exact ⟨t, ht, rfl, rfl, by simp [cipherChunks], fun _ _ => rfl⟩
  | cons b bs ih =>
    obtain ⟨hb0, hb1⟩ := hb b (by simp)
    obtain ⟨t1, h1, hc1, hw1, hs1, he1⟩ := streamLoop_round ht hb0 hb1
    obtain ⟨t2, h2, hc2, hw2, hs2, he2⟩ := ih h1 (fun c hc => by rw [hc1]; exact hb c (by simp [hc]))
    refine ⟨t2, h2, hc2.trans hc1, ?_, ?_, fun reads writes => ?_⟩
    · rw [hw2, hw1, List.map_cons, List.sum_cons, Nat.add_comm, Function.iterate_add_apply]
    · rw [hs2, hs1, hw1, cipherChunks, List.append_assoc]
    · rw [List.map_cons, List.map_cons, List.cons_append, List.cons_append, he1, he2]

/-- A stream with both channels on a live CORE, its chunk size in range, goes to its first read (R210). -/
theorem streamStart_ready {chunk : Int} {s : State} (h1 : 1 ≤ chunk) (h2 : chunk ≤ 2 ^ 31 - 1) (hl : s.life = .ready) :
    streamStart true true chunk s =
      .next ⟨s, chunk.toNat, zeros chunk.toNat, zeros chunk.toNat, [], .reading⟩ := by
  have hs := (statusReady_iff s).mpr hl
  unfold streamStart
  rw [if_neg (by simp [Config.maxBuf]; omega)]
  simp [hs]

/-- An ended stream ignores every further event. -/
theorem resumeAll_ended (es : List Event) (t : Task) (v : Verdict) (h : t.phase = .ended v) :
    resumeAll es t = .next t := by
  induction es with
  | nil => rfl
  | cons e es ih => simp [resumeAll, resume, h, ih]

theorem onOthers_phase {ts : List Transaction} {t t' : Task} (h : onOthers ts t = .next t') :
    t'.phase = t.phase := by
  obtain ⟨c, -, h2⟩ := andThen_eq_next.mp h
  obtain rfl := Host.Outcome.next.inj h2
  rfl

/-! ## UTF-8 -/

theorem utf8Tail_byte (n : Nat) : utf8IsTail (utf8Tail n) = true ∧ (utf8Tail n).toNat - 0x80 = n % 64 := by
  have : (utf8Tail n).toNat = 0x80 + n % 64 := by simp [utf8Tail]; omega
  simp [utf8IsTail, this]
  omega

theorem utf8EncodeScalar_ne_nil (n : Nat) : utf8EncodeScalar n ≠ [] := by
  unfold utf8EncodeScalar
  split_ifs <;> simp

/-- The first scalar of an encoded text is the one encoded first. -/
theorem utf8Next_encode (c : Char) (rest : List Byte) :
    utf8Next (utf8EncodeScalar c.toNat ++ rest) = some (c, rest) := by
  have hv : c.toNat.isValidChar := c.valid
  have hlt : c.toNat < 0x110000 := by rcases hv with h | h <;> omega
  generalize hn : c.toNat = n at hv hlt
  have hc : Char.ofNat n = c := by rw [← hn]; exact Char.ofNat_toNat c
  have T := utf8Tail_byte
  unfold utf8EncodeScalar
  by_cases h1 : n < 0x80
  · rw [if_pos h1]
    have hb : n % 256 = n := by omega
    simp [utf8Next, hb, h1, utf8Scalar, hv, hc]
  rw [if_neg h1]
  by_cases h2 : n < 0x800
  · rw [if_pos h2]
    have hb : (BitVec.ofNat 8 (0xC0 + n / 64)).toNat = 0xC0 + n / 64 := by simp; omega
    have e : (0xC0 + n / 64 - 0xC0) * 64 + n % 64 = n := by omega
    simp only [utf8Next, List.cons_append, List.nil_append, hb]
    rw [if_neg (by omega), if_neg (by omega), if_neg (by simp [(T n).1]), if_pos (by omega), (T n).2, e, utf8Scalar,
      if_pos ⟨by omega, hv⟩, hc]
  rw [if_neg h2]
  by_cases h3 : n < 0x10000
  · rw [if_pos h3]
    have hb : (BitVec.ofNat 8 (0xE0 + n / 4096)).toNat = 0xE0 + n / 4096 := by simp; omega
    have e : (0xE0 + n / 4096 - 0xE0) * 4096 + n / 64 % 64 * 64 + n % 64 = n := by omega
    simp only [utf8Next, List.cons_append, List.nil_append, hb]
    rw [if_neg (by omega), if_neg (by omega), if_neg (by simp [(T (n / 64)).1]), if_neg (by omega),
      if_neg (by simp [(T n).1]), if_pos (by omega), (T n).2, (T _).2, e, utf8Scalar, if_pos ⟨by omega, hv⟩, hc]
  · rw [if_neg h3]
    have hb : (BitVec.ofNat 8 (0xF0 + n / 262144)).toNat = 0xF0 + n / 262144 := by simp; omega
    have e : (0xF0 + n / 262144 - 0xF0) * 262144 + n / 4096 % 64 * 4096 + n / 64 % 64 * 64 + n % 64 = n := by omega
    simp only [utf8Next, List.cons_append, List.nil_append, hb]
    rw [if_neg (by omega), if_neg (by omega), if_neg (by simp [(T (n / 4096)).1]), if_neg (by omega),
      if_neg (by simp [(T (n / 64)).1]), if_neg (by omega), if_neg (by simp [(T n).1]), (T n).2, (T (n / 64)).2,
      (T _).2, e, utf8Scalar, if_pos ⟨by omega, hv⟩, hc]

end Sys2Proof.Machine
end

