-- ==== Sys2Proof/Laws/PerInstr.lean ====
section
/-! SUPPORT. Laws/PerInstr.lean: statements about every command as syntax, one lemma per constructor of `Instr`. -/

namespace Sys2Proof.Laws.LegalCommandWord

/-- The command word of a command is one of the seven of spec 30_encoding.md R82, with RES = 0 (R73) and OPC naming its
command (R71). -/
def Statement (i : Instr) : Prop :=
  commandWord i ∈ legalWords ∧ res (commandWord i) = 0 ∧ 1 ≤ (opc (commandWord i)).toNat ∧ (opc (commandWord i)).toNat ≤ 3

theorem init (key nonce : Buf) (ctr : Word) : Statement (.init key nonce ctr) := by
  simp [Statement, commandWord, legalWords, res, opc]

theorem combine (out inp : Buf) (x : Word) : Statement (.combine out inp x) := by
  simp [Statement, commandWord, legalWords, res, opc]

theorem combineB1 (out inp : Buf) (x : Word) : Statement (.combineB1 out inp x) := by
  simp [Statement, commandWord, legalWords, res, opc]

theorem combineV16 (out inp : Buf) (x : Word) : Statement (.combineV16 out inp x) := by
  simp [Statement, commandWord, legalWords, res, opc]

theorem combineV32 (out inp : Buf) (x : Word) : Statement (.combineV32 out inp x) := by
  simp [Statement, commandWord, legalWords, res, opc]

theorem combineV64 (out inp : Buf) (x : Word) : Statement (.combineV64 out inp x) := by
  simp [Statement, commandWord, legalWords, res, opc]

theorem dispose : Statement .dispose := by
  simp [Statement, commandWord, legalWords, res, opc]

end Sys2Proof.Laws.LegalCommandWord

namespace Sys2Proof.Laws.OperandSlots

/-- The encoder sends a command's word, and admissible operands stay admissible (30_encoding.md R75, R77). -/
def Statement (i : Instr) : Prop := (encode i).cmd = commandWord i ∧ (i.wf = true → (encode i).wf = true)

theorem init (key nonce : Buf) (ctr : Word) : Statement (.init key nonce ctr) := ⟨rfl, id⟩

theorem combine (out inp : Buf) (x : Word) : Statement (.combine out inp x) := ⟨rfl, id⟩

theorem combineB1 (out inp : Buf) (x : Word) : Statement (.combineB1 out inp x) := ⟨rfl, id⟩

theorem combineV16 (out inp : Buf) (x : Word) : Statement (.combineV16 out inp x) := ⟨rfl, id⟩

theorem combineV32 (out inp : Buf) (x : Word) : Statement (.combineV32 out inp x) := ⟨rfl, id⟩

theorem combineV64 (out inp : Buf) (x : Word) : Statement (.combineV64 out inp x) := ⟨rfl, id⟩

theorem dispose : Statement .dispose := ⟨rfl, fun _ => rfl⟩

end Sys2Proof.Laws.OperandSlots
end

