-- ==== Sys2Proof/Tests/Slice0.lean ====
section
/-! SUPPORT. Tests/Slice0.lean: the model against values written out in spec/ (mostly 95_test_vectors.md, named in each
docstring), and one witness for the hypotheses of each obligation that has any. -/

namespace Sys2Proof.Tests

open Sys2Proof Sys2Proof.Machine

-- One theorem at a time: checked together they need more memory than the sandbox gives.
set_option Elab.async false

/-- `n` bytes written as one hexadecimal number, index 0 first. -/
def hex (n v : Nat) : List Byte := (List.range n).map fun i => BitVec.ofNat 8 (v / 2 ^ (8 * (n - 1 - i)))

/-- A CORE in the reset state but for its open values. -/
def blank : State := ⟨zeroWords, .disposed, 0x00, .v32, Hidden.cleared, [], none, ⟨0, 1⟩⟩

/-- A READY CORE whose words 4 to 15 are given. -/
def live (w : Vector Word 12) : State := { blank with words := (sigma ++ w).cast rfl, life := .ready }

/-- The state of V-S1 after INIT, with S[12] and S[13] as given. -/
def zeroCipher (c n : Word) : State := live #v[0, 0, 0, 0, 0, 0, 0, 0, c, n, 0, 0]

/-- The key `bytes(0x00..0x1f)`, K1. -/
def k1 : List Byte := (List.range 32).map (BitVec.ofNat 8)

/-- The last twelve words of a cipher with key K1. -/
def k1Words (c n0 n1 n2 : Word) : Vector Word 12 :=
  #v[0x03020100, 0x07060504, 0x0b0a0908, 0x0f0e0d0c, 0x13121110, 0x17161514, 0x1b1a1918, 0x1f1e1d1c, c, n0, n1, n2]

/-- A result is a next state in which `p` holds. -/
def nextHas (r : Result State) (p : State → Bool) : Bool :=
  match r with
  | .next t => p t
  | _ => false

theorem nextHas_elim {r : Result State} {p : State → Bool} (h : nextHas r p = true) : ∃ t, r = .next t ∧ p t = true := by
  cases r with
  | next t => exact ⟨t, rfl, h⟩
  | fault e => cases h
  | refused e => cases h

/-- The response is `code` with `r`, and S[12], S[13] and the rest of S are as given. -/
def answers (code : Byte) (r : Buf) (w : Words) (t : State) : Bool :=
  t.response == some ⟨code, r⟩ && t.lastCode == code && t.words == w

/-- The response is `code` with `r`, and S and LIFE are those of `s`. -/
def failsWith (s : State) (code : Byte) (r : Buf) (t : State) : Bool :=
  answers code r s.words t && t.life == s.life

/-- `Z(n)` of 95_test_vectors.md section 0. -/
def z (n : Nat) : Buf := .present (zeros n)

/-- The ciphertext of V-S1, its first 16 bytes quoted from the source (95_test_vectors.md section 1). -/
def vs1 : List Byte :=
  hex 40 0x76b8e0ada0f13d90405d6ae55386bd28bdd219b8a08ded1aa836efcc8b770dc7da41597c5157488d ++
  hex 24 0x7724e03fb8d84a376a43b8f41518a11cc387b669b2ee6586

/-- The plaintext of V-S2. -/
def vs2Plain : List Byte :=
  hex 40 0x4c616469657320616e642047656e746c656d656e206f662074686520636c617373206f6620273939 ++
  hex 40 0x3a204966204920636f756c64206f6666657220796f75206f6e6c79206f6e652074697020666f7220 ++
  hex 34 0x746865206675747572652c2073756e73637265656e20776f756c642062652069742e

/-- The ciphertext of V-S2. -/
def vs2Cipher : List Byte :=
  hex 40 0x6e2e359a2568f98041ba0728dd0d6981e97e7aec1d4360c20a27afccfd9fae0bf91b65c5524733ab ++
  hex 40 0x8f593dabcd62b3571639d624e65152ab8f530c359f0861d807ca0dbf500d6a6156a38e088a22b65e ++
  hex 34 0x52bc514d16ccf806818ce91ab77937365af90bbf74a35be6b40b8eedf2785e42874d

/-- The output of the 128-byte COMBINE of V-S4. -/
def vs4 : List Byte :=
  hex 40 0x032cc123482c31711f94c941af5ab1f4155784332ed5348fe79aec5ead4c06c3f13c280d8cc49925 ++
  hex 40 0xe4a6a5922ec80e13a4cdfa840c70a1427a3cb699166991a5ace4cd09e294d1912d4ad205d06f95d9 ++
  hex 40 0xc2f2bfcf453e8753f128765b62215f4d92c74f2f626c6a640c0b1284d839ec81f1696281dafc3e68 ++
  hex 8 0x4593937023b58b1d

/-- The keystream block of V-B1. -/
def vb1 : List Byte :=
  hex 40 0x10f1e7e4d13b5915500fdd1fa32071c4c7d1f4c733c068030422aa9ac3d46c4ed2826446079faa09 ++
  hex 24 0x14c2d705d98b02a2b5129cd1de164eb9cbd083e8a2503c4e

/-- The output of step 2 of program P3. -/
def p3 : List Byte :=
  hex 40 0x0620f2fc73936cc437b9a97abfc4ef5c659f7226ff78078f0917e4041a4a7f360a48ba6a99e4b403 ++
  hex 25 0x11b81d673abe5297ab30787bd81f05c32b33273c13e41404da

/-! ## Well-formedness: each check refuses a term that breaks it -/

theorem overlong_length : (List.replicate (2 ^ 31) (0 : Byte)).length = 2 ^ 31 := List.length_replicate

/-- A buffer of 2^31 bytes is one byte too long (R77). -/
theorem test_wf_buffer : (Buf.present (List.replicate (2 ^ 31) 0)).wf = false := by
  rw [Buf.wf, overlong_length]
  decide

theorem test_wf_operandA : (Transaction.mk 0x00000004 (.present (List.replicate (2 ^ 31) 0)) .absent 0).wf = false := by
  rw [Transaction.wf, test_wf_buffer]
  rfl

theorem test_wf_operandB : (Transaction.mk 0x00000003 .absent (.present (List.replicate (2 ^ 31) 0)) 0).wf = false := by
  rw [Transaction.wf, test_wf_buffer]
  rfl

theorem test_wf_instr : (Instr.init (.present (List.replicate (2 ^ 31) 0)) .absent 0).wf = false ∧
    (Instr.combine .absent (.present (List.replicate (2 ^ 31) 0)) 0).wf = false ∧
    (Instr.combineB1 (.present (List.replicate (2 ^ 31) 0)) .absent 0).wf = false ∧
    (Instr.combineV16 .absent (.present (List.replicate (2 ^ 31) 0)) 0).wf = false ∧
    (Instr.combineV32 (.present (List.replicate (2 ^ 31) 0)) .absent 0).wf = false ∧
    (Instr.combineV64 .absent (.present (List.replicate (2 ^ 31) 0)) 0).wf = false := by
  simp only [Instr.wf, test_wf_buffer]
  decide

theorem test_wf_admits : (Transaction.mk 0 .absent (z 0) 0).wf = true ∧ Instr.dispose.wf = true := by decide

/-! ## Decoding: words written out from R70 to R73, RES (21 bits), WID (3 bits), OPC (8 bits) -/

theorem test_decode_init (a b : Buf) (x : Word) :
    decode ⟨0b000000000000000000000_000_00000001, a, b, x⟩ = .ok (.init a b x) := rfl

theorem test_decode_combine (a b : Buf) (x : Word) :
    decode ⟨0b000000000000000000000_000_00000010, a, b, x⟩ = .ok (.combine a b x) := by
  simp [decode, res, opc, wid, combineOfWid]

theorem test_decode_combineB1 (a b : Buf) (x : Word) :
    decode ⟨0b000000000000000000000_001_00000010, a, b, x⟩ = .ok (.combineB1 a b x) := by
  simp [decode, res, opc, wid, combineOfWid]

theorem test_decode_combineV16 (a b : Buf) (x : Word) :
    decode ⟨0b000000000000000000000_010_00000010, a, b, x⟩ = .ok (.combineV16 a b x) := by
  simp [decode, res, opc, wid, combineOfWid]

theorem test_decode_combineV32 (a b : Buf) (x : Word) :
    decode ⟨0b000000000000000000000_011_00000010, a, b, x⟩ = .ok (.combineV32 a b x) := by
  simp [decode, res, opc, wid, combineOfWid]

theorem test_decode_combineV64 (a b : Buf) (x : Word) :
    decode ⟨0b000000000000000000000_100_00000010, a, b, x⟩ = .ok (.combineV64 a b x) := by
  simp [decode, res, opc, wid, combineOfWid]

theorem test_decode_dispose (a b : Buf) (x : Word) :
    decode ⟨0b000000000000000000000_000_00000011, a, b, x⟩ = .ok .dispose := rfl

/-- The illegal words of 95_test_vectors.md section 2.1. -/
theorem test_decode_illegal : ∀ w ∈ [0x00000000, 0x00000502, 0x00000602, 0x00000702, 0x00000802, 0x80000002, 0x00000101,
    0x00000103, 0x00000004, 0x000000ff, (0xffffffff : Word)],
    ∃ e, decode ⟨w, .absent, .absent, 0⟩ = .error e := by
  simp only [List.forall_mem_cons, List.not_mem_nil, false_implies, implies_true, and_true]
  exact ⟨⟨_, rfl⟩, ⟨_, rfl⟩, ⟨_, rfl⟩, ⟨_, rfl⟩, ⟨_, rfl⟩, ⟨_, rfl⟩, ⟨_, rfl⟩, ⟨_, rfl⟩, ⟨_, rfl⟩, ⟨_, rfl⟩, ⟨_, rfl⟩⟩

/-- The count operand (95_test_vectors.md section 2.1, R76). -/
theorem test_count : countOf 0x00000000 = 0 ∧ countOf 0x00000040 = 64 ∧ countOf 0x7fffffff = 2147483647 ∧
    countOf 0x80000000 = -2147483648 ∧ countOf 0xffffffff = -1 := by decide

/-- Lines of programs P1 (step 2), P2 (step 4) and P5 (step 10), and the key K1 as the assembler writes it (R80, R82). -/
theorem test_assemble : assemble [] (.combine (some .v16) (.zeros 64) (.zeros 64) 64) = some ⟨0x00000202, z 64, z 64, 0x40⟩ ∧
    assemble [("CT", .present vs2Cipher)] (.combine (some .b1) (.zeros 114) (.name "CT") 114) =
      some ⟨0x00000102, z 114, .present vs2Cipher, 0x72⟩ ∧
    assemble [] (.combine none (.zeros 8) (.zeros 8) (-1)) = some ⟨0x00000002, z 8, z 8, 0xffffffff⟩ ∧
    assemble [] (.init (.bytes 0x00 0x1f) .absent 1) = some ⟨0x00000001, .present k1, .absent, 1⟩ := by decide +kernel

/-- From reset, a step runs the word at the port: with absent operands INIT answers 0x02, every COMBINE 0x08, DISPOSE 0x00
and an illegal word 0x09 (R134, R254, R230, R78). -/
theorem test_step_from_reset :
    ([0x00000001, 0x00000002, 0x00000102, 0x00000202, 0x00000302, 0x00000402, 0x00000003, 0x00000004].map fun w =>
      nextHas (step (State.reset.withFetchWord 32 w)) fun t => t.queue.isEmpty && t.response == some ⟨t.lastCode, .absent⟩
        && t.lastCode == (if w = 1 then 0x02 else if w = 3 then 0x00 else if w = 4 then 0x09 else 0x08)) =
      List.replicate 8 true := by decide +kernel

/-! ## Primitives (95_test_vectors.md section 2.2) -/

theorem test_add_xor : add32 0x12345678 0x9ABCDEF0 = 0xACF13568 ∧ add32 0xFFFFFFFF 0x00000001 = 0x00000000 ∧
    add32 0x80000000 0x80000000 = 0x00000000 ∧ xor32 0x0F0F0F0F 0xFFFF0000 = 0xF0F00F0F := by decide

theorem test_rotl : rotl32 0x80000001 1 = 0x00000003 ∧ rotl32 0x12345678 16 = 0x56781234 ∧
    rotl32 0x12345678 12 = 0x45678123 ∧ rotl32 0x12345678 8 = 0x34567812 ∧ rotl32 0x12345678 7 = 0x1A2B3C09 ∧
    rotl32 0xFFFFFFFF 7 = 0xFFFFFFFF ∧ rotl32 0x00000001 31 = 0x80000000 := by decide

theorem test_unpack_pack : unpackLe (hex 4 0x01020304) 0 = 0x04030201 ∧ unpackLe (hex 4 0x65787061) 0 = 0x61707865 ∧
    packLe 0xE4E7F110 = hex 4 0x10f1e7e4 ∧
    wordsLe (hex 12 0x000000090000004a00000000) 3 = [0x09000000, 0x4a000000, 0x00000000] := by decide +kernel

/-- SIGMA is the 16 ASCII bytes of R131. -/
theorem test_sigma : sigma.toList = wordsLe (("expand 32-byte k".toList).map fun c => BitVec.ofNat 8 c.toNat) 4 := by
  decide +kernel

/-! ## The block function (95_test_vectors.md section 2.4) -/

theorem test_quarterRound : quarterRound ⟨0x11111111, 0x01020304, 0x9b8d6f43, 0x01234567⟩ =
    ⟨0xea2a92f4, 0xcb1cf8ce, 0x4581472e, 0x5881c4bb⟩ ∧ quarterRound ⟨0, 0, 0, 0⟩ = ⟨0, 0, 0, 0⟩ ∧
    quarterRound ⟨1, 0, 0, 0⟩ = ⟨0x10000001, 0x80808808, 0x01010110, 0x01000110⟩ := by decide

/-- The state of V-I1. -/
def vi1 : State := live (k1Words 1 0x09000000 0x4a000000 0)

/-- V-B1, the column round and the double-round. -/
theorem test_rounds : columnRound vi1.words =
      #v[0xabbaa25c, 0x1efa51ea, 0x7354fbdf, 0x83d2dc69, 0x3a465196, 0x1c7e64f6, 0xb12fb628, 0xf05b6976,
        0x6b3ca454, 0x08eb14b1, 0xbf8a9ac9, 0xe444df3b, 0xdec62ed2, 0x8862cc77, 0x6e35b345, 0x52a647f1] ∧
    doubleRound vi1.words =
      #v[0xcd52e917, 0x85ab03b4, 0xb3457395, 0xf96de7dd, 0xc4b7cd22, 0x5c2e187a, 0xc95eb461, 0x316c801a,
        0x7bf7d740, 0x7eddd644, 0xf1a1bdf5, 0x761246ca, 0x6b0d58a3, 0x6798471a, 0xd737f167, 0xf173888d] := by
  decide +kernel

/-- V-B1, the keystream block. -/
theorem test_keystream : (keystream vi1.words).toList = vb1 := by decide +kernel

/-- V-B4: a double wrap with no carry into S[14]. -/
theorem test_advance : (advance (live #v[0, 0, 0, 0, 0, 0, 0, 0, 0xffffffff, 0xffffffff, 0xffffffff, 0xffffffff]).words) =
    (live #v[0, 0, 0, 0, 0, 0, 0, 0, 0, 0, 0xffffffff, 0xffffffff]).words := by decide +kernel

/-! ## Commands -/

/-- V-I1, from a READY CORE with another cipher. -/
theorem test_init :
    nextHas (exec (.init (.present k1) (.present (hex 12 0x000000090000004a00000000)) 1) (zeroCipher 7 0))
      (· == { vi1 with response := some ⟨0x00, .absent⟩ }) = true := by decide +kernel

/-- V-S5 and V-I3, each on the READY state of V-I1: S all 0 and DISPOSED after every row. -/
theorem test_init_errors :
    ([(Buf.absent, z 12, 2), (z 31, z 12, 1), (z 32, z 11, 3), (.absent, .absent, 2), (z 0, z 12, 1), (z 33, z 12, 1),
      (z 31, .absent, 1), (z 32, .absent, 3), (z 32, z 0, 3), (z 32, z 13, (3 : Byte))].all fun r =>
      nextHas (exec (.init r.1 r.2.1 0) vi1) (failsWith blank r.2.2 .absent)) = true := by decide +kernel

/-- V-C2: bytes beyond the count are kept. -/
theorem test_combine : nextHas (exec (.combine (.present (List.replicate 8 0xaa)) (z 8) 5) (zeroCipher 0 0))
    (answers 0x00 (.present (hex 8 0x76b8e0ada0aaaaaa)) (zeroCipher 1 0).words) = true := by decide +kernel

/-- 95_test_vectors.md section 2.8, on the READY state of V-S1. -/
theorem test_combine_errors :
    ([(z 8, Buf.absent, 8, 4), (.absent, z 8, 8, 5), (.absent, .absent, 8, 4), (.absent, z 8, 9, 5), (z 8, z 8, 9, 6),
      (z 8, z 8, 0xffffffff, 6), (z 8, z 8, 0x80000000, 6), (z 4, z 8, 5, 7), (z 4, z 8, (9 : Word), (6 : Byte))].all
      fun r => nextHas (exec (.combine r.1 r.2.1 r.2.2.1) (zeroCipher 0 0)) (failsWith (zeroCipher 0 0) r.2.2.2 r.1)) =
      true := by decide +kernel

/-- V-S4: COMBINE.B1 carries into S[13] at the second block step. -/
theorem test_combineB1 : nextHas (exec (.combineB1 (z 128) (z 128) 128) (zeroCipher 0xFFFFFFFE 0))
    (answers 0x00 (.present vs4) (zeroCipher 0 1).words) = true := by decide +kernel

/-- V-S1 with COMBINE.V16 (program P1, step 2). -/
theorem test_combineV16 : nextHas (exec (.combineV16 (z 64) (z 64) 64) (zeroCipher 0 0))
    (answers 0x00 (.present vs1) (zeroCipher 1 0).words) = true := by decide +kernel

/-- V-S2 with COMBINE.V32 (program P2, step 2): one full block and a tail of 50. -/
theorem test_combineV32 : nextHas (exec (.combineV32 (z 114) (.present vs2Plain) 114) (live (k1Words 1 0 0x4a000000 0)))
    (answers 0x00 (.present vs2Cipher) (live (k1Words 3 0 0x4a000000 0)).words) = true := by decide +kernel

/-- Program P3, step 2: COMBINE.V64 with a counter wrap and a one-word carry between its two block steps. -/
theorem test_combineV64 : nextHas (exec (.combineV64 (z 65) (z 65) 65) (live (k1Words 0xffffffff 0xffffffff 1 2)))
    (answers 0x00 (.present p3) (live (k1Words 1 0 1 2)).words) = true := by decide +kernel

/-- V-L1 and V-L4. -/
theorem test_dispose : nextHas (exec .dispose vi1) (· == { blank with response := some ⟨0x00, .absent⟩ }) = true ∧
    nextHas (exec .dispose blank) (· == { blank with response := some ⟨0x00, .absent⟩ }) = true := by decide +kernel

/-- Reads of STATUS: V-I1, the last state of program P1 and step 12 of program P5. -/
theorem test_status : vi1.status = 0x00000001 ∧ State.status { blank with lastCode := 0x08 } = 0x00000800 ∧
    State.status { vi1 with lastCode := 0x09 } = 0x00000901 := by decide +kernel

/-- Word 0x00000502 with present buffers (section 2.8): operands are not examined, and R = A. -/
theorem test_illegal : nextHas (issue ⟨0x00000502, z 8, z 8, 8⟩ (zeroCipher 0 0)) (failsWith (zeroCipher 0 0) 0x09 (z 8)) =
    true := by decide +kernel

/-! ## HOST procedures (95_test_vectors.md section 2.6, program P6) -/

/-- A source that answers reads of these lengths, all bytes zero. -/
def zeroReads (ns : List Nat) : List ReadTurn := ns.map fun n => ⟨[], .bytes (zeros n)⟩

/-- The stream succeeded with S[12] = 4, and the sink got 200 bytes, from byte 100 on and from byte 192 on as given. -/
def streamed (from100 from192 : List Byte) (r : Result Task) : Bool :=
  match r with
  | .next t => t.phase == .ended .succeeded && t.sink.length == 200 && t.core.words == (zeroCipher 4 0).words &&
      (t.sink.drop 100).take 4 == from100 && t.sink.drop 192 == from192
  | _ => false

/-- V-T1: reads of 64, 64, 64, 8 and 0 give the bytes of one COMBINE of 200. -/
theorem test_stream_wholeBlocks : streamed (hex 4 0x9ce64e43) (hex 8 0x1320a058d7b3566b) (encryptStream
    (some (List.replicate 4 ⟨[], .done⟩)) (some (zeroReads [64, 64, 64, 8, 0])) 64 (zeroCipher 0 0)) = true := by
  decide +kernel

/-- Program P6: reads of 100, 100 and 0 differ from byte 100 on. -/
theorem test_stream_P6 : streamed (hex 4 0x2d09a0e6) (hex 8 0xb45c91a42dd4cb83) (encryptStream
    (some (List.replicate 2 ⟨[], .done⟩)) (some (zeroReads [100, 100, 0])) 100 (zeroCipher 0 0)) = true := by
  decide +kernel

/-- R215: a stream on a disposed CORE fails with 0x08 before it reads. -/
theorem test_stream_disposed : (match encryptStreamDefault (some []) (some []) blank with
    | .next t => t.phase == .ended (.failed 0x08) && t.core == blank && t.chunk == 1024
    | _ => false) = true := by decide +kernel

/-- UTF-8 (general knowledge, log 14): one scalar of each length, and three byte strings that are not UTF-8. -/
theorem test_utf8 : utf8Encode ['A', 'é', '€', '😀'] = hex 10 0x41c3a9e282acf09f9880 ∧ utf8Decode (hex 2 0xc080) = none ∧
    utf8Decode (hex 3 0xeda080) = none ∧ utf8Decode (hex 1 0x80) = none := by decide +kernel

/-! ## Witnesses: states and operands that meet the hypotheses of each obligation -/

theorem live_ready (w : Vector Word 12) : (live w).life = .ready := rfl

theorem z_length (n : Nat) : (zeros n).length = n := List.length_replicate

/-- A COMBINE of 8 bytes and a reset wait at the port. -/
def busy : State := { vi1 with queue := [.command ⟨0x00000002, z 8, z 8, 8⟩, .reset] }

theorem witness_CapIsConstantAndWithoutEffect : step blank = .next blank ∧
    ∃ u, issue ⟨0x00000003, .absent, .absent, 0⟩ vi1 = .next u := ⟨rfl, _, rfl⟩

theorem witness_StepRunsDecodedCommand : busy.queue = .command ⟨0x00000002, z 8, z 8, 8⟩ :: [.reset] ∧
    (Transaction.mk 0x00000002 (z 8) (z 8) 8).wf = true ∧
    decode ⟨0x00000002, z 8, z 8, 8⟩ = .ok (.combine (z 8) (z 8) 8) := by
  refine ⟨rfl, by decide, by simp [decode, res, opc, wid, combineOfWid]⟩

theorem witness_EmptyPortWaits : blank.queue = [] := rfl

theorem witness_OverlongBufferIsRefused (t : Transaction) (rest : List Request) :
    State.queue { blank with queue := .command t :: rest } = .command t :: rest ∧
    2 ^ 31 - 1 < (List.replicate (2 ^ 31) (0 : Byte)).length ∧
    (Transaction.mk 1 (.present (List.replicate (2 ^ 31) 0)) .absent 0).a = .present (List.replicate (2 ^ 31) 0) ∧
    (Transaction.mk 4 .absent (.present (List.replicate (2 ^ 31) 0)) 0).b = .present (List.replicate (2 ^ 31) 0) :=
  ⟨rfl, by rw [overlong_length]; decide, rfl, rfl⟩

theorem witness_ResetIsTakenBetweenCommands : State.queue { vi1 with queue := [.reset, .reset] } = .reset :: [.reset] ∧
    State.queue { vi1 with queue := [.resetDuring ⟨0x00000003, .absent, .absent, 0⟩] } =
      .resetDuring ⟨0x00000003, .absent, .absent, 0⟩ :: [] ∧
    (Transaction.mk 0x00000003 .absent .absent 0).wf = true := by decide

/-- A command, and DISPOSE, whose operands are ignored. -/
theorem witness_DecodeInvertsEncode : decode ⟨0x00000402, z 1, .absent, 5⟩ = .ok (.combineV64 (z 1) .absent 5) ∧
    Instr.combineV64 (z 1) .absent 5 ≠ .dispose ∧ decode ⟨0x00000003, z 1, .absent, 5⟩ = .ok .dispose := by
  refine ⟨by simp [decode, res, opc, wid, combineOfWid], by decide, rfl⟩

theorem witness_EveryOtherWordIsIllegal : (Transaction.mk 0x00000802 (z 1) .absent 0).wf = true ∧
    (0x00000802 : Word) ∉ [0x00000001, 0x00000003, 0x00000002, 0x00000102, 0x00000202, 0x00000302, (0x00000402 : Word)] := by
  decide

/-- Operands with values, and the ends of the ranges of a counter and a count. -/
theorem witness_AssembledLinesDecode : (BufOperand.hex (hex 4 0x01020304)).eval [] = some (.present (hex 4 0x01020304)) ∧
    (BufOperand.name "P").eval [("P", .absent)] = some .absent ∧ (0 : Int) ≤ 0 ∧ (2 : Int) ^ 32 - 1 < 2 ^ 32 ∧
    (-2 : Int) ^ 31 ≤ -2 ^ 31 ∧ (2 : Int) ^ 31 - 1 < 2 ^ 31 := by decide +kernel

/-- The amounts 0, 1 and 31. -/
theorem witness_RotateLeftMovesBits : 0 ≤ 31 ∧ 31 ≤ 31 ∧ 1 ≤ 31 ∧ (rotl32 0x80000001 0).getLsbD 31 = true ∧
    (rotl32 0x80000001 31).getLsbD 31 = true ∧ rotl32 (rotl32 0x80000001 1) 31 = 0x80000001 := by decide

/-- The only word of a four-byte buffer, its last byte and last bit. -/
theorem witness_PackAndUnpackAreInverse : 0 + 3 < (hex 4 0x01020380).length ∧ 3 < 4 ∧ 7 < 8 ∧
    (unpackLe (hex 4 0x01020380) 0).getLsbD (8 * 3 + 7) = true := by decide

/-- The indices of the first quarter-round, and four zero words. -/
theorem witness_QuarterRoundIsTheEightAssignments : [(0 : Fin 16), 4, 8, 12].Nodup ∧
    zeroWords[(0 : Fin 16)] = 0 ∧ zeroWords[(4 : Fin 16)] = 0 ∧ zeroWords[(8 : Fin 16)] = 0 ∧
    zeroWords[(12 : Fin 16)] = 0 := by decide

theorem witness_RoundsDoNotDependOnOrder :
    [((3 : Fin 16), (7 : Fin 16), (11 : Fin 16), (15 : Fin 16)), (2, 6, 10, 14), (1, 5, 9, 13), (0, 4, 8, 12)].Perm
      [(0, 4, 8, 12), (1, 5, 9, 13), (2, 6, 10, 14), (3, 7, 11, 15)] ∧
    [((3 : Fin 16), (4 : Fin 16), (9 : Fin 16), (14 : Fin 16)), (2, 7, 8, 13), (1, 6, 11, 12), (0, 5, 10, 15)].Perm
      [(0, 5, 10, 15), (1, 6, 11, 12), (2, 7, 8, 13), (3, 4, 9, 14)] := by decide

/-- The first byte and the last byte of the block; S[12] at its wrap and just before it; words 11 and 14. -/
theorem witness_BlockStepWritesOnlyTheCounter : 4 * 0 + 0 < 64 ∧ 4 * 15 + 3 < 64 ∧
    (zeroCipher 0xFFFFFFFF 0).words[12] + 1 = 0 ∧ (zeroCipher 0xFFFFFFFE 0).words[12] + 1 ≠ 0 ∧
    (advance (zeroCipher 0xFFFFFFFF 0).words)[13] = 1 ∧ (advance (zeroCipher 0xFFFFFFFE 0).words)[13] = 0 ∧
    (11 < 16 ∧ 11 ≠ 12 ∧ 11 ≠ 13) ∧ 14 < 16 ∧ 14 ≠ 12 ∧ 14 ≠ 13 := by decide +kernel

theorem witness_CounterPairIsA64BitCounter : (zeros 32).length = 32 ∧ (zeros 12).length = 12 := by decide

/-- The last step count before the carry, the first after it, and the last before the next wrap. -/
theorem witness_CarryHappensOnceFrom0xFFFFFFFE : (zeroCipher 0xFFFFFFFE 0).words[12] = 0xFFFFFFFE ∧ 1 < 2 ∧
    (2 ≤ 2 ∧ 2 < 2 + 2 ^ 32) ∧ 2 ≤ 2 ^ 32 + 1 ∧ 2 ^ 32 + 1 < 2 + 2 ^ 32 := by decide +kernel

theorem witness_InitLoadsKeyCounterAndNonce : k1.length = 32 ∧ (zeros 12).length = 12 := by decide

/-- Keys of 31 and 33 bytes; with a key of 32, an absent nonce and nonces of 11 and 13 bytes. -/
theorem witness_FailedInitZeroesEverything : (zeros 31).length ≠ 32 ∧ (zeros 33).length ≠ 32 ∧ (zeros 32).length = 32 ∧
    (∀ n, Buf.absent = .present n → n.length ≠ 12) ∧ (∀ n, z 11 = .present n → n.length ≠ 12) ∧
    (∀ n, z 13 = .present n → n.length ≠ 12) := by
  refine ⟨by decide, by decide, by decide, fun n h => ?_, fun n h => ?_, fun n h => ?_⟩
  · cases h
  all_goals
    obtain rfl := Buf.present.inj h
    decide

/-- Counts 0 and 64, the latter all of both buffers; all five forms; bytes 63 and 64 at the end of the count. -/
theorem witness_CombineXorsKeystream : vi1.life = .ready ∧ (0 : Word).toInt = (0 : Nat) ∧ (64 : Word).toInt = (64 : Nat) ∧
    64 ≤ (zeros 64).length ∧ (combineForms (z 64) (z 64) 64).length = 5 ∧
    Instr.combineV64 (z 64) (z 64) 64 ∈ combineForms (z 64) (z 64) 64 ∧ 63 < (zeros 64).length ∧ 64 ≤ 64 ∧
    11 < 16 ∧ 11 ≠ 12 ∧ 11 ≠ 13 := by decide +kernel

/-- A COMBINE that answers 0x00 and one that answers 0x06. -/
theorem witness_CombineAdvancesCounterPerBlock :
    Instr.combineB1 (z 1) (z 1) 1 ∈ combineForms (z 1) (z 1) 1 ∧
    (∃ t, exec (.combineB1 (z 1) (z 1) 1) vi1 = .next t ∧ (t.lastCode == 0x00) = true) ∧
    ∃ t, exec (.combineB1 (z 1) (z 1) 2) vi1 = .next t ∧ (t.lastCode != 0x00) = true :=
  ⟨by decide, nextHas_elim (by decide +kernel), nextHas_elim (by decide +kernel)⟩

theorem witness_CombineIsBounded : (Instr.combine (z 1) (z 1) 1).wf = true ∧
    ∃ t, exec (.combine (z 1) (z 1) 1) vi1 = .next t ∧ (t.lastCode == 0x00) = true :=
  ⟨by decide, nextHas_elim (by decide +kernel)⟩

/-- Counts -1 and 9 with 8 bytes of input; counts 8 with 7 bytes of output, and 0 that is not below 0. -/
theorem witness_CombineErrorsInPriorityOrder : blank.life = .disposed ∧ vi1.life = .ready ∧ z 8 ≠ .absent ∧
    (0xFFFFFFFF : Word).toInt < 0 ∧ ((zeros 8).length : Int) < (9 : Word).toInt ∧ 0 ≤ (8 : Word).toInt ∧
    (8 : Word).toInt ≤ (zeros 8).length ∧ ((zeros 7).length : Int) < (8 : Word).toInt ∧ ¬(0 : Word).toInt < 0 := by
  decide +kernel

theorem witness_CombineIsAllOrNothing :
    (∃ t, exec (.combineV16 (z 1) (z 1) 1) vi1 = .next t ∧ (t.lastCode == 0x00) = true) ∧
    ∃ t, exec (.combineV16 (z 1) .absent 1) vi1 = .next t ∧ (t.lastCode == 0x04) = true :=
  ⟨nextHas_elim (by decide +kernel), nextHas_elim (by decide +kernel)⟩

theorem witness_LaneWidthHasNoEffect : Instr.combine (z 1) (z 1) 1 ∈ combineForms (z 1) (z 1) 1 ∧
    Instr.combineV32 (z 1) (z 1) 1 ∈ combineForms (z 1) (z 1) 1 := by decide

theorem witness_EncryptingTwiceGivesThePlaintext : k1.length = 32 ∧ (zeros 12).length = 12 ∧
    (2 : Word).toInt = (2 : Nat) ∧ 2 ≤ (hex 3 0x010203).length ∧ 2 ≤ (zeros 2).length ∧
    Instr.combineB1 (z 2) (.present (hex 3 0x010203)) 2 ∈ combineForms (z 2) (.present (hex 3 0x010203)) 2 := by decide

/-- A split at 64 bytes, one of 64 and none, and one at 32 (program P4), where the bytes need not be those of one command. -/
theorem witness_SplittingACombine : vi1.life = .ready ∧ (64 : Word).toInt = (zeros 64).length ∧
    (8 : Word).toInt = (zeros 8).length ∧ (72 : Word).toInt = ((zeros 64).length + (zeros 8).length : Nat) ∧
    (zeros 64).length % 64 = 0 ∧ ([] : List Byte).length = 0 ∧ ¬((zeros 32).length % 64 = 0 ∨ (zeros 32).length = 0) ∧
    (zeros 72).length = (zeros 64).length + (zeros 8).length ∧
    Instr.combineB1 (z 64) (z 64) 64 ∈ combineForms (z 64) (z 64) 64 ∧
    Instr.combineV64 (z 8) (z 8) 8 ∈ combineForms (z 8) (z 8) 8 ∧
    Instr.combine (z 72) (.present (zeros 64 ++ zeros 8)) 72 ∈
      combineForms (z 72) (.present (zeros 64 ++ zeros 8)) 72 := by decide +kernel

theorem witness_CombineOfNothing : vi1.life = .ready ∧ Instr.combineV32 (z 2) (z 4) 0 ∈ combineForms (z 2) (z 4) 0 := by
  decide

/-- Two states that differ in LAST_CODE, CAP, W, K and the port. -/
theorem witness_CombineIsDeterminedByStateAndOperands :
    vi1.words = State.words { vi1 with lastCode := 9, capAuto := .b1, queue := [.reset] } ∧
    vi1.life = State.life { vi1 with lastCode := 9, capAuto := .b1, queue := [.reset] } ∧
    Instr.combine .absent .absent 0 ∈ combineForms .absent .absent 0 := by decide

/-- A disposed CORE, a COMBINE form on it, and the one transaction that makes it READY. -/
theorem witness_OnlyInitEndsDisposal : blank.life = .disposed ∧
    Instr.combineV16 .absent .absent 0 ∈ combineForms .absent .absent 0 ∧
    ∃ u, issue ⟨0x00000001, .present k1, z 12, 0⟩ blank = .next u ∧ (u.life == .ready) = true :=
  ⟨rfl, by decide, nextHas_elim (by decide +kernel)⟩

theorem witness_DisposeZeroesState : vi1.life = .ready ∧ blank.life = .disposed := ⟨rfl, rfl⟩

theorem witness_DisposeIsIdempotent : ∃ t, exec .dispose vi1 = .next t := ⟨_, rfl⟩

/-- Each row of the table: a valid INIT, an INIT whose nonce is a byte short, a COMBINE on either state, its count all of
both buffers, then one above them, DISPOSE, an illegal word, and a reset. -/
theorem witness_LifecycleTable : (vi1.life = .disposed → vi1.words = Vector.replicate 16 0) ∧
    (blank.life = .disposed → blank.words = Vector.replicate 16 0) ∧
    ((∃ u, issue ⟨0x00000001, .present k1, z 12, 7⟩ vi1 = .next u ∧ (u.lastCode == 0x00) = true) ∧
      decode ⟨0x00000001, .present k1, z 12, 7⟩ = .ok (.init (.present k1) (.present (zeros 12)) 7) ∧ k1.length = 32 ∧
      (zeros 12).length = 12) ∧
    ((∃ u, issue ⟨0x00000001, .present k1, z 11, 7⟩ vi1 = .next u ∧ (u.lastCode == 0x03) = true) ∧
      ¬∃ k n, Buf.present k1 = .present k ∧ z 11 = .present n ∧ k.length = 32 ∧ n.length = 12) ∧
    (∃ u, issue ⟨0x00000002, z 1, z 1, 1⟩ blank = .next u ∧ (u.lastCode == 0x08) = true) ∧
    ((∃ u, issue ⟨0x00000002, z 1, z 1, 1⟩ vi1 = .next u ∧ (u.lastCode == 0x00) = true) ∧
      decode ⟨0x00000002, z 1, z 1, 1⟩ = .ok (.combine (z 1) (z 1) 1) ∧ (1 : Word).toInt = (1 : Nat) ∧
      1 ≤ (zeros 1).length) ∧
    ((∃ u, issue ⟨0x00000002, z 1, z 1, 2⟩ vi1 = .next u ∧ (u.lastCode == 0x06) = true) ∧
      ¬∃ (a b : List Byte) (n : Nat), z 1 = .present a ∧ z 1 = .present b ∧ (2 : Word).toInt = n ∧ n ≤ b.length ∧
        n ≤ a.length) ∧
    decode ⟨0x00000003, .absent, .absent, 0⟩ = .ok .dispose ∧
    ((∃ u, issue ⟨0x00000004, z 1, z 1, 1⟩ vi1 = .next u ∧ (u.lastCode == 0x09) = true) ∧
      ∀ i, decode ⟨0x00000004, z 1, z 1, 1⟩ ≠ .ok i) ∧
    State.queue { vi1 with queue := [.reset] } = .reset :: [] := by
  refine ⟨fun h => (by cases h), fun _ => rfl, ⟨nextHas_elim (by decide +kernel), rfl, by decide, by decide⟩,
    ⟨nextHas_elim (by decide +kernel), ?_⟩, nextHas_elim (by decide +kernel),
    ⟨nextHas_elim (by decide +kernel), by simp [decode, res, opc, wid, combineOfWid], by decide, by decide⟩,
    ⟨nextHas_elim (by decide +kernel), ?_⟩, rfl,
    ⟨nextHas_elim (by decide +kernel), fun i => by simp [decode, res, opc, wid]⟩, rfl⟩
  · rintro ⟨k, n, -, h, -, hn⟩
    obtain rfl := Buf.present.inj h
    exact absurd hn (by decide)
  · rintro ⟨a, b, n, -, h, hx, hn, -⟩
    obtain rfl := Buf.present.inj h
    have h2 : (2 : Word).toInt = 2 := by decide
    rw [z_length] at hn
    omega

theorem witness_CodesEachCommandRaises :
    (∃ u, issue ⟨0x00000003, .absent, .absent, 0⟩ vi1 = .next u ∧ (u.lastCode == 0x00) = true) ∧
    (∃ u, issue ⟨0x00000001, .absent, .absent, 0⟩ vi1 = .next u ∧ (u.lastCode == 0x02) = true) ∧
    (∃ u, issue ⟨0x00000402, .absent, .absent, 0⟩ vi1 = .next u ∧ (u.lastCode == 0x04) = true) ∧
    ∃ u, issue ⟨0x00000802, .absent, .absent, 0⟩ vi1 = .next u ∧ (u.lastCode == 0x09) = true :=
  ⟨nextHas_elim (by decide +kernel), nextHas_elim (by decide +kernel), nextHas_elim (by decide +kernel),
    nextHas_elim (by decide +kernel)⟩

theorem witness_ErrorsWriteOnlyLastCode :
    (∃ u, issue ⟨0x00000001, z 32, z 11, 0⟩ vi1 = .next u ∧ (u.lastCode != 0x00) = true) ∧
    ∃ u, issue ⟨0x00000002, .absent, z 11, 0⟩ vi1 = .next u ∧ (u.lastCode != 0x00) = true :=
  ⟨nextHas_elim (by decide +kernel), nextHas_elim (by decide +kernel)⟩

theorem witness_LastCodeIsTheCodeOfTheResponse : ∃ u, issue ⟨0x00000004, z 1, z 1, 1⟩ vi1 = .next u ∧
    (u.response == some ⟨0x09, z 1⟩) = true := nextHas_elim (by decide +kernel)

theorem witness_EveryCommandAnswers : (Transaction.mk 0xFFFFFFFF (z 1) .absent 0).wf = true := by decide

/-- A COMBINE on a READY CORE that makes a block step, one that answers 0x06, and an illegal word; words 11 and 14. -/
theorem witness_KeyAndNonceAreImmutableWhileReady : vi1.life = .ready ∧
    (∀ k n c, Instr.combine (z 1) (z 1) 1 ≠ .init k n c) ∧ Instr.combine (z 1) (z 1) 1 ≠ .dispose ∧
    (∃ t, exec (.combine (z 1) (z 1) 1) vi1 = .next t ∧ (t.lastCode == 0x00) = true) ∧
    (∃ t, exec (.combine (z 1) (z 1) 2) vi1 = .next t ∧ (t.lastCode != 0x00) = true) ∧
    (∀ i, decode ⟨0x00000802, z 1, z 1, 1⟩ ≠ .ok i) ∧
    (∃ u, issue ⟨0x00000802, z 1, z 1, 1⟩ vi1 = .next u ∧ (u.lastCode == 0x09) = true) ∧
    (11 < 16 ∧ 11 ≠ 12 ∧ 11 ≠ 13) ∧ 14 < 16 ∧ 14 ≠ 12 ∧ 14 ≠ 13 :=
  ⟨rfl, fun _ _ _ => Instr.noConfusion, by decide, nextHas_elim (by decide +kernel), nextHas_elim (by decide +kernel),
    fun i => by simp [decode, res, opc, wid], nextHas_elim (by decide +kernel), by decide, by decide⟩

/-- A COMBINE that touches neither hidden buffer: its count is 0. -/
theorem witness_CommandsLeaveCapPortAndHidden :
    (∃ t, exec (.combine (z 1) (z 1) 0) vi1 = .next t ∧ (t.lastCode == 0x00) = true) ∧
    ∀ out inp x, Instr.combine (z 1) (z 1) 0 ∈ combineForms out inp x → x = 0 := by
  refine ⟨nextHas_elim (by decide +kernel), fun out inp x h => ?_⟩
  simp only [combineForms, List.mem_cons, Instr.combine.injEq, List.not_mem_nil, or_false, reduceCtorEq] at h
  exact h.2.2.symm

theorem witness_OnlyCombineOutputDependsOnS :
    (∃ u, issue ⟨0x00000002, z 1, z 1, 2⟩ vi1 = .next u ∧ (u.lastCode != 0x00) = true) ∧
    ∃ u, issue ⟨0x00000003, z 1, z 1, 2⟩ vi1 = .next u ∧ (u.lastCode == 0x00) = true :=
  ⟨nextHas_elim (by decide +kernel), nextHas_elim (by decide +kernel)⟩

theorem witness_HiddenBuffersAreUnobservable :
    vi1.sameButHidden { vi1 with hidden := ⟨vi1.words, Vector.replicate 64 1⟩, draws := ⟨3, 5⟩ } ∧
    ∃ t, performOthers [⟨0x00000003, .absent, .absent, 0⟩, ⟨0x00000004, .absent, .absent, 0⟩] vi1 = .next t ∧
      (t.lastCode == 0x09) = true := ⟨rfl, nextHas_elim (by decide +kernel)⟩

/-- CORE 1 of a system is in the reset state but for its own free values (R262, log 27). -/
theorem test_resetCore : (State.resetCore 1).life = .disposed ∧ (State.resetCore 1).words = zeroWords ∧
    (State.resetCore 1).lastCode = 0x00 ∧ (State.resetCore 1).draws = ⟨1, 1⟩ ∧ State.resetCore 0 = State.reset :=
  ⟨rfl, rfl, rfl, rfl, rfl⟩

theorem blank_inv : blank.Inv := ⟨fun _ => rfl, fun h => (by cases h), by decide⟩

theorem witness_StepKeepsTheInvariant : vi1.Inv ∧ blank.Inv ∧
    ∃ t, step { vi1 with queue := [.command ⟨0x00000003, .absent, .absent, 0⟩] } = .next t ∧ (t.life == .disposed) = true :=
  ⟨⟨fun h => (by cases h), fun _ => by decide +kernel, by decide⟩, blank_inv, nextHas_elim (by decide +kernel)⟩

theorem witness_DisposedMeansZeroInEveryRun : Reachable State.reset ∧ State.reset.life = .disposed ∧ 15 < 16 :=
  ⟨.reset, rfl, by decide⟩

theorem witness_CoresAreIndependent : (∃ sys, System.stepCore ⟨[blank, vi1]⟩ ⟨1, by decide⟩ = .next sys) ∧ 0 ≠ 1 ∧
    (∃ t, step blank = .next t) ∧ ∃ t, step vi1 = .next t := ⟨⟨_, rfl⟩, by decide, ⟨_, rfl⟩, ⟨_, rfl⟩⟩

/-- No length; a length of all the input; a length of 0. -/
theorem witness_EncryptAllocReturnsEveryByte : vi1.life = .ready ∧ (zeros 8).length ≤ 2 ^ 31 - 1 ∧
    ((none : Option Word) = none → 8 = (zeros 8).length) ∧ (8 : Word).toInt = (8 : Nat) ∧ 8 ≤ (zeros 8).length ∧
    (0 : Word).toInt = (0 : Nat) := by decide +kernel

theorem witness_TextRoundTrip : k1.length = 32 ∧ (zeros 12).length = 12 ∧
    (utf8Encode ['A', '€']).length ≤ 2 ^ 31 - 1 := by decide +kernel

/-- Chunk sizes 0 and 2^31, outside the range, and 1 and 2^31 - 1, its ends; an absent source, an absent sink. -/
theorem witness_StreamChecksBeforeTheFirstRead : (0 : Int) < 1 ∧ (2 : Int) ^ 31 - 1 < 2 ^ 31 ∧ (1 : Int) ≤ 1 ∧
    (2 : Int) ^ 31 - 1 ≤ 2 ^ 31 - 1 ∧ blank.life = .disposed ∧ vi1.life = .ready ∧
    (some (zeroReads [1]) : Option (List ReadTurn)) ≠ none := by decide +kernel

/-- Chunks of 64 and 8 bytes, and no chunk at all. -/
theorem witness_StreamOfWholeBlocksIsOneCombine : vi1.life = .ready ∧
    (∀ b ∈ [zeros 64, zeros 8], b ≠ [] ∧ (b.length : Int) ≤ 64) ∧ (∀ b ∈ [zeros 64, zeros 8].dropLast, b.length % 64 = 0) ∧
    (72 : Word).toInt = [zeros 64, zeros 8].flatten.length ∧ (zeros 72).length = [zeros 64, zeros 8].flatten.length ∧
    (0 : Word).toInt = ([] : List (List Byte)).flatten.length := by decide +kernel

/-- A stream of two chunks that are no whole blocks, and the bytes it wrote in pieces of the same lengths, read with another
chunk size; and chunks and pieces of other lengths, all but the last whole blocks. -/
theorem witness_StreamOfTheSameReadsDecrypts : vi1.life = .ready ∧
    (∀ b ∈ [hex 3 0x010203, hex 2 0x0405], b ≠ [] ∧ (b.length : Int) ≤ 3) ∧
    (∃ t, encryptStream (some ([hex 3 0x010203, hex 2 0x0405].map fun _ => ⟨[], .done⟩))
        (some ([hex 3 0x010203, hex 2 0x0405].map (fun b => ⟨[], .bytes b⟩) ++ [⟨[], .bytes []⟩])) 3 vi1 = .next t ∧
      [t.sink.take 3, t.sink.drop 3].flatten = t.sink ∧
      (∀ b ∈ [t.sink.take 3, t.sink.drop 3], b ≠ [] ∧ (b.length : Int) ≤ 8) ∧
      [t.sink.take 3, t.sink.drop 3].map List.length = [hex 3 0x010203, hex 2 0x0405].map List.length) ∧
    (∀ b ∈ [zeros 64, zeros 8].dropLast, b.length % 64 = 0) ∧ (∀ b ∈ [zeros 72].dropLast, b.length % 64 = 0) ∧
    [zeros 72].flatten.length = [zeros 64, zeros 8].flatten.length := by
  refine ⟨rfl, by decide +kernel, ?_, by decide, by decide, by decide⟩
  have h : (match encryptStream (some ([hex 3 0x010203, hex 2 0x0405].map fun _ => ⟨[], .done⟩))
      (some ([hex 3 0x010203, hex 2 0x0405].map (fun b => ⟨[], .bytes b⟩) ++ [⟨[], .bytes []⟩])) 3 vi1 with
    | .next t => t.sink.length == 5
    | _ => false) = true := by decide +kernel
  generalize encryptStream _ _ 3 vi1 = r at h ⊢
  cases r with
  | next t =>
    have h5 : t.sink.length = 5 := by simpa using h
    refine ⟨t, rfl, by simp, fun b hb => ?_, by simp [h5, hex]⟩
    have hl : b.length = 3 ∨ b.length = 2 := by
      simp only [List.mem_cons, List.not_mem_nil, or_false] at hb
      rcases hb with rfl | rfl <;> simp [h5]
    exact ⟨fun h0 => by simp [h0] at hl, by omega⟩
  | fault e => cases h
  | refused e => cases h

/-- Chunks of 100 bytes, none of them whole blocks. -/
theorem witness_StreamErrorsKeepWhatWasDone : vi1.life = .ready ∧ (1 : Int) ≤ 100 ∧ (100 : Int) ≤ 2 ^ 31 - 1 ∧
    (∀ b ∈ [zeros 100, zeros 100], b ≠ [] ∧ (b.length : Int) ≤ 100) ∧ zeros 1 ≠ [] ∧ ((zeros 1).length : Int) ≤ 100 := by
  decide +kernel

/-- Chunks before the DISPOSE at a read; the same with one chunk more before the DISPOSE at its write; and none before. -/
theorem witness_StreamStopsWhenDisposed : vi1.life = .ready ∧ (1 : Int) ≤ 64 ∧ (64 : Int) ≤ 2 ^ 31 - 1 ∧
    (∀ b ∈ [zeros 64] ++ [zeros 1], b ≠ [] ∧ (b.length : Int) ≤ 64) ∧
    (∀ b ∈ [zeros 64] ++ [zeros 3, zeros 1], b ≠ [] ∧ (b.length : Int) ≤ 64) ∧
    (∀ b ∈ [] ++ [zeros 64], b ≠ [] ∧ (b.length : Int) ≤ 64) ∧ Buf.absent.wf = true ∧ (z 1).wf = true := by
  decide +kernel

/-- A stream of one byte during which another agent disposes the CORE at the write (R221): its next read ends it. -/
theorem witness_AsyncStreamMatchesSynchronous : (∃ start, streamStart true true 8 vi1 = .next start) ∧
    ∃ t, encryptStream (some [⟨[⟨0x00000003, .absent, .absent, 0⟩], .done⟩]) (some (zeroReads [1, 1])) 8 vi1 = .next t ∧
      (t.phase == .ended (.failed 0x08)) = true := by
  refine ⟨⟨_, rfl⟩, ?_⟩
  have h : (match encryptStream (some [⟨[⟨0x00000003, .absent, .absent, 0⟩], .done⟩]) (some (zeroReads [1, 1])) 8 vi1 with
    | .next t => t.phase == .ended (.failed 0x08)
    | _ => false) = true := by decide +kernel
  generalize encryptStream (some [⟨[⟨0x00000003, .absent, .absent, 0⟩], .done⟩]) (some (zeroReads [1, 1])) 8 vi1 = r at h ⊢
  cases r with
  | next t => exact ⟨t, rfl, h⟩
  | fault e => cases h
  | refused e => cases h

end Sys2Proof.Tests
end

section
/-! PROOFS. What a step does with a command at the port, and the statements of 00_scope.md. -/

namespace Sys2Proof.Machine

/-- A command next at the port is issued in the state with its request taken off (R60). -/
theorem step_of_queue_eq_command {s : State} {t : Transaction} {rest : List Request} (hq : s.queue = .command t :: rest) :
    step s = issue t { s with queue := rest } := by
  simp only [step, serve, hq]

/-- An admissible transaction whose word is a command's runs that command (R74, R77). -/
theorem issue_eq_exec {t : Transaction} {i : Instr} (hw : t.wf = true) (hd : decode t = .ok i) (s : State) :
    issue t s = exec i s := by
  simp only [issue, hw, hd, if_true]

/-- Settles O4: the step issues the transaction at the head of the port, and issuing it runs what it decodes to. -/
theorem stepRunsDecodedCommand : Obligations.StepRunsDecodedCommand := by
  intro s t rest i hq hw hd
  calc step s = issue t { s with queue := rest } := step_of_queue_eq_command hq
    _ = exec i { s with queue := rest } := issue_eq_exec hw hd _

end Sys2Proof.Machine
end

section
/-! PROOFS. The invariant between commands, and the statements of 10_state.md. -/

namespace Sys2Proof.Machine

/-! ### The invariant (R21, R25, R251) -/

/-- Block steps change no word outside the counter pair (R161). -/
theorem advance_iterate_other (s : Words) (n i : Nat) (h : i < 16) (h12 : i ≠ 12) (h13 : i ≠ 13) :
    (advance^[n] s)[i] = s[i] := by
  rw [advance_iterate, withCounter_other s _ i h h12 h13]

/-- A state with S zero and DISPOSED meets the invariant whenever its LAST_CODE is in use. -/
theorem inv_of_zero_of_disposed {s : State} (hw : s.words = zeroWords) (hl : s.life = .disposed)
    (hc : s.lastCode.toNat ≤ 9) : s.Inv where
  zeroWhenDisposed _ := hw
  sigmaWhenReady hr := by rw [hl] at hr; cases hr
  codeInUse := hc

/-- The invariant speaks of S, LIFE and LAST_CODE only, and a code in use may replace LAST_CODE. -/
theorem State.Inv.of_same_cipher {s t : State} (hs : s.Inv) (hw : t.words = s.words) (hl : t.life = s.life)
    (hc : t.lastCode.toNat ≤ 9) : t.Inv where
  zeroWhenDisposed h := hw.trans (hs.zeroWhenDisposed (hl ▸ h))
  sigmaWhenReady h i := by rw [hw]; exact hs.sigmaWhenReady (hl ▸ h) i
  codeInUse := hc

/-- A reset leads to a state that meets the invariant from any state at all (R280). -/
theorem takeReset_inv (s : State) : s.takeReset.Inv :=
  inv_of_zero_of_disposed rfl rfl (by simp)

/-- INIT leads to a state that meets the invariant from any state at all (R132, R134). -/
theorem execInit_establishes_inv {k n : Buf} {c : Word} {s u : State} (h : execInit k n c s = .next u) : u.Inv := by
  rcases execInit_inv h with ⟨hc, hl, -, ⟨kb, nb, hw⟩, -⟩ | ⟨hc, hu⟩
  · refine ⟨fun hd => ?_, fun _ i => ?_, by rw [hc]; decide⟩
    · rw [hl] at hd; cases hd
    · simp only [hw, init_words_getElem _ _ _ _ _ (show i.val < 16 by omega), i.isLt, dite_true,
        Fin.getElem_fin]
  · have hle : u.lastCode.toNat ≤ 9 := by
      simp only [List.mem_cons, List.not_mem_nil, or_false] at hc
      rcases hc with h | h | h <;> rw [h] <;> decide
    exact inv_of_zero_of_disposed (congrArg State.words hu) (congrArg State.life hu) hle

/-- COMBINE keeps the invariant: its block steps touch the counter pair only (R161, R181). -/
theorem combineAt_keeps_inv {w : LaneWidth} {out inp : Buf} {x : Word} {s u : State} (hs : s.Inv)
    (h : combineAt w out inp x s = .next u) : u.Inv := by
  rcases combineAt_inv h with ⟨c, -, rfl⟩ | ⟨hr, hl, hc, ⟨n, hw⟩, -⟩
  · exact hs.of_same_cipher rfl rfl (code_le c)
  · refine ⟨fun hd => ?_, fun _ i => ?_, by rw [hc]; decide⟩
    · rw [hl] at hd; cases hd
    · simp only [hw]
      rw [advance_iterate_other _ _ _ (by omega) (by omega) (by omega)]
      exact hs.sigmaWhenReady hr i

/-- DISPOSE keeps the invariant (R230). -/
theorem execDispose_keeps_inv {s u : State} (hs : s.Inv) (h : execDispose s = .next u) : u.Inv := by
  rw [execDispose_eq, respond_eq] at h
  obtain rfl := Host.Outcome.next.inj h
  by_cases hr : s.life = .ready
  · exact inv_of_zero_of_disposed (by simp [hr]) (by simp [hr]) (code_le .ok)
  · exact hs.of_same_cipher (by simp [hr]) (by simp [hr]) (code_le .ok)

/-- Every transaction keeps the invariant. -/
theorem issue_keeps_inv {t : Transaction} {s u : State} (hs : s.Inv) (h : issue t s = .next u) : u.Inv := by
  rcases issue_inv h with ⟨-, rfl⟩ | ⟨k, n, c, -, hi⟩ | ⟨out, inp, x, i, w, -, -, hi⟩ | ⟨-, hi⟩
  · exact hs.of_same_cipher rfl rfl (code_le .illegalCommand)
  · exact execInit_establishes_inv hi
  · exact combineAt_keeps_inv hs hi
  · exact execDispose_keeps_inv hs hi

/-- Settles O49: by the four ways a step can end, each a transaction, a reset, both in this order, or nothing. -/
theorem stepKeepsTheInvariant : Obligations.StepKeepsTheInvariant := by
  intro s t hs h
  rcases step_inv h with ⟨-, rfl⟩ | ⟨c, rest, -, hc⟩ | ⟨rest, -, rfl⟩ | ⟨c, rest, -, rfl | ⟨u, -, rfl⟩⟩
  · exact hs
  · refine issue_keeps_inv ?_ hc
    exact hs.of_same_cipher rfl rfl hs.codeInUse
  · exact (takeReset_inv s).of_same_cipher rfl rfl (takeReset_inv s).codeInUse
  · exact inv_of_zero_of_disposed rfl rfl (by simp)
  · exact takeReset_inv u

/-- Settles O48: the reset state has S zero, is DISPOSED and has LAST_CODE 0x00. -/
theorem resetMeetsTheInvariant : Obligations.ResetMeetsTheInvariant :=
  inv_of_zero_of_disposed reset_words reset_life (by simp)

/-- The invariant holds of every state a CORE can be in. -/
theorem Reachable.inv {s : State} (h : Reachable s) : s.Inv := by
  induction h with
  | reset => exact resetMeetsTheInvariant
  | post r _ ih => exact ih.of_same_cipher rfl rfl ih.codeInUse
  | step _ hst ih => exact stepKeepsTheInvariant _ _ ih hst

/-- Settles O50: the invariant holds of every reachable state, and it says that S is zero while DISPOSED. -/
theorem disposedMeansZeroInEveryRun : Obligations.DisposedMeansZeroInEveryRun := by
  intro s h hd i hi
  simp [h.inv.zeroWhenDisposed hd]

/-! ### STATUS, CAP and the reset state (R26, R28, R32) -/

/-- STATUS as a number: LIFE in bit 0, LAST_CODE from bit 8 on (R26). -/
theorem status_toNat (s : State) : s.status.toNat = 256 * s.lastCode.toNat + s.life.bit.toNat := by
  have hb : s.life.bit.toNat < 2 ^ 8 := Nat.lt_of_lt_of_le s.life.bit.isLt (by decide)
  have hc := s.lastCode.isLt
  rw [State.status, BitVec.toNat_or, BitVec.toNat_shiftLeft, BitVec.toNat_setWidth, BitVec.toNat_setWidth,
    Nat.mod_eq_of_lt (a := s.lastCode.toNat) (by omega), Nat.mod_eq_of_lt (a := s.life.bit.toNat) (by omega),
    Nat.mod_eq_of_lt (by rw [Nat.shiftLeft_eq]; omega), ← Nat.shiftLeft_add_eq_or_of_lt hb, Nat.shiftLeft_eq]
  omega

/-- At reset STATUS reads 0 (R32). -/
theorem reset_status : State.reset.status = 0 := by
  apply BitVec.eq_of_toNat_eq
  rw [status_toNat, reset_life, reset_lastCode]
  rfl

/-- Settles O2: each field is read off the number STATUS is. -/
theorem statusReadsLifeAndLastCode : Obligations.StatusReadsLifeAndLastCode := by
  refine ⟨fun s => ⟨statusReady_iff s, ?_, ?_, ?_⟩, reset_status⟩
  all_goals
    have hb := s.life.bit.isLt
    have hc := s.lastCode.isLt
    apply BitVec.eq_of_toNat_eq
    rw [BitVec.extractLsb'_toNat, status_toNat, Nat.shiftRight_eq_div_pow]
  · omega
  · show _ = 0
    omega
  · show _ = 0
    omega

/-- CAP as a number: the four implemented widths in bits 3:0, AUTO_WID from bit 4 on (R28). -/
theorem cap_toNat (s : State) : s.cap.toNat = 0xF + 16 * s.capAuto.wid := by
  unfold State.cap
  cases s.capAuto <;> rfl

/-- The code of a width is 1 to 4 (R72). -/
theorem wid_bounds (w : LaneWidth) : 1 ≤ w.wid ∧ w.wid ≤ 4 := by
  cases w <;> decide

/-- CAP is a read of AUTO_WID alone (R28). -/
theorem cap_congr {s t : State} (h : t.capAuto = s.capAuto) : t.cap = s.cap := by
  rw [State.cap, State.cap, h]

/-- Settles O1: the rows of R32, each by the model's own value at reset. -/
theorem resetState : Obligations.ResetState :=
  ⟨zeroWords_getElem, reset_life, reset_lastCode, reset_status, cap_toNat State.reset⟩

/-- No step, a reset included, writes AUTO_WID (R28). -/
theorem step_capAuto {s t : State} (h : step s = .next t) : t.capAuto = s.capAuto := by
  rcases step_inv h with ⟨-, rfl⟩ | ⟨c, rest, -, hc⟩ | ⟨rest, -, rfl⟩ | ⟨c, rest, -, rfl | ⟨u, hu, rfl⟩⟩
  · rfl
  · exact (issue_frame hc).1
  · rfl
  · rfl
  · exact (issue_frame hu).1

/-! ### Every transaction answers, and with what code (R27, R250) -/

/-- Every command ends in a next state, whatever the state it starts in (R250, R255). -/
theorem exec_next (i : Instr) (s : State) : ∃ t, exec i s = .next t := by
  rcases exec_cases i s with ⟨k, n, c, -, he⟩ | ⟨o, b, x, -, he⟩ | ⟨-, he⟩
  · rw [he]
    exact execInit_next k n c s
  · rcases combineAt_cases (formWidth s i) o b x s with ⟨c, -, hr⟩ | ⟨ops, t, -, ht, -⟩
    · exact ⟨_, he.trans hr⟩
    · exact ⟨t, he.trans ht⟩
  · exact ⟨_, he.trans (execDispose_eq s)⟩

/-- Every transaction the port admits ends in a next state (R77, R250). -/
theorem issue_next {t : Transaction} (hw : t.wf = true) (s : State) : ∃ u, issue t s = .next u := by
  rcases issue_cases t s with ⟨hf, -⟩ | ⟨-, -, hi⟩ | ⟨-, i, -, hi⟩
  · rw [hw] at hf; cases hf
  · exact ⟨_, hi⟩
  · rw [hi]
    exact exec_next i s

/-- Settles O3: CAP is a read of AUTO_WID, which no step writes; and what a transaction answers and leaves depends on S
and LIFE alone. -/
theorem capIsConstantAndWithoutEffect : Obligations.CapIsConstantAndWithoutEffect := by
  refine ⟨fun s => ?_, reset_capAuto, fun s t h => cap_congr (step_capAuto h), fun s => rfl, fun t s u w h => ?_⟩
  · obtain ⟨h1, h4⟩ := wid_bounds s.capAuto
    refine ⟨BitVec.eq_of_toNat_eq ?_, ?_, h1, h4, BitVec.eq_of_toNat_eq ?_⟩
    all_goals rw [BitVec.extractLsb'_toNat, cap_toNat, Nat.shiftRight_eq_div_pow]
    · show _ = 0b1111
      omega
    · omega
    · show _ = 0
      omega
  · obtain ⟨v, hv⟩ := issue_next (issue_wf h) { s with capAuto := w }
    exact ⟨v, hv, issue_congr (s := s) (s' := { s with capAuto := w }) rfl rfl h hv⟩

/-- Settles O42: an illegal word, INIT, COMBINE and DISPOSE each end by delivering a response and writing its code. -/
theorem lastCodeIsTheCodeOfTheResponse : Obligations.LastCodeIsTheCodeOfTheResponse := by
  intro t s u h
  rcases issue_inv h with ⟨-, rfl⟩ | ⟨k, n, c, -, hi⟩ | ⟨out, inp, x, i, w, -, -, hi⟩ | ⟨-, hi⟩
  · exact ⟨_, rfl, rfl⟩
  · rcases execInit_inv hi with ⟨hc, -, hr, -⟩ | ⟨-, hu⟩
    · exact ⟨_, hr, hc⟩
    · exact ⟨_, congrArg State.response hu, rfl⟩
  · rcases combineAt_inv hi with ⟨c, -, rfl⟩ | ⟨-, -, hc, -, -, -, r, hr⟩
    · exact ⟨_, rfl, rfl⟩
    · exact ⟨_, hr, hc⟩
  · rw [execDispose_eq, respond_eq] at hi
    obtain rfl := Host.Outcome.next.inj hi
    exact ⟨_, rfl, rfl⟩

/-! ### What a READY cipher keeps (R22, R185) -/

/-- A COMBINE that fails a check does not answer 0x00 (R251). -/
theorem combineOperands_error_byte_ne_zero {life : Life} {out inp : Buf} {x : Word} {c : Code}
    (h : combineOperands life out inp x = .error c) : c.byte ≠ 0x00 := by
  rcases combineOperands_error h with ⟨-, rfl⟩ | ⟨-, rfl | rfl | rfl | rfl⟩ <;> decide

/-- A command other than INIT and DISPOSE is one of the five COMBINE forms on some operands. -/
theorem exists_combineForm {i : Instr} (hi : ∀ k n c, i ≠ .init k n c) (hd : i ≠ .dispose) :
    ∃ out inp x, i ∈ combineForms out inp x := by
  cases i with
  | init k n c => exact absurd rfl (hi k n c)
  | dispose => exact absurd rfl hd
  | combine o b x | combineB1 o b x | combineV16 o b x | combineV32 o b x | combineV64 o b x =>
    exact ⟨o, b, x, by simp [combineForms]⟩

/-- What a COMBINE does to S: ceil(count / 64) block steps with code 0x00, nothing with another code (R185, R253). -/
theorem combineAt_words {w : LaneWidth} {out inp : Buf} {x : Word} {s t : State}
    (h : combineAt w out inp x s = .next t) :
    t.life = s.life ∧
      ((t.lastCode = 0x00 ∧ ∃ n : Nat, x.toInt = n ∧ t.words = advance^[(n + 63) / 64] s.words) ∨
       (t.lastCode ≠ 0x00 ∧ t.words = s.words)) := by
  rcases combineAt_cases w out inp x s with ⟨c, hc, hr⟩ | ⟨ops, u, ho, hu, hw, hl, hlc, -⟩
  · rw [hr, raise_eq] at h
    obtain rfl := Host.Outcome.next.inj h
    exact ⟨rfl, .inr ⟨combineOperands_error_byte_ne_zero hc, rfl⟩⟩
  · rw [hu] at h
    obtain rfl := Host.Outcome.next.inj h
    obtain ⟨-, -, -, hx, -, -⟩ := combineOperands_eq_ok.mp ho
    exact ⟨hl, .inl ⟨hlc, ops.count, by rw [← countOf_eq_toInt, hx], by rw [hw, blocksFor_eq_ceil]⟩⟩

/-- Settles O44: such a command is a COMBINE form, whose block steps leave every word outside the counter pair. -/
theorem keyAndNonceAreImmutableWhileReady : Obligations.KeyAndNonceAreImmutableWhileReady := by
  refine ⟨fun i s t hr hi hd h => ?_, fun t s u hr hd h => ?_⟩
  · obtain ⟨out, inp, x, hm⟩ := exists_combineForm hi hd
    obtain ⟨w, he⟩ := exec_combineForm hm s
    obtain ⟨hl, ⟨hc, n, hx, hw⟩ | ⟨hc, hw⟩⟩ := combineAt_words (he ▸ h)
    · refine ⟨⟨out, inp, x, hm, fun _ => ⟨n, hx, by rw [block_snd, hw]⟩, fun h' => absurd hc h'⟩, ?_, hl.trans hr⟩
      intro j hj h12 h13
      simp only [hw]
      exact advance_iterate_other _ _ j hj h12 h13
    · exact ⟨⟨out, inp, x, hm, fun h' => absurd h' hc, fun _ => hw⟩, fun j hj _ _ => by simp only [hw], hl.trans hr⟩
  · rcases issue_cases t s with ⟨-, hf⟩ | ⟨-, -, hi⟩ | ⟨-, i, hok, -⟩
    · rw [hf] at h; cases h
    · rw [hi, raise_eq] at h
      obtain rfl := Host.Outcome.next.inj h
      exact ⟨rfl, hr⟩
    · exact absurd hok (hd i)

/-! ### What depends on S (R23) -/

/-- INIT does not read the words of S: it ends the live cipher first (R133). -/
theorem execInit_words_irrelevant (k n : Buf) (c : Word) (s : State) (w : Words) :
    execInit k n c { s with words := w } = execInit k n c s := rfl

/-- The code of a COMBINE depends on LIFE and the operands alone, and so does the response of one that fails (R23, R254). -/
theorem combineAt_code_congr {v : LaneWidth} {out inp : Buf} {x : Word} {s s' u : State} (hl : s.life = s'.life)
    (h : combineAt v out inp x s = .next u) :
    ∃ u', combineAt v out inp x s' = .next u' ∧ u'.lastCode = u.lastCode ∧
      (u.lastCode ≠ 0x00 → u'.response = u.response) := by
  cases hc : combineOperands s.life out inp x with
  | error c =>
    rw [combineAt_error hc, raise_eq] at h
    obtain rfl := Host.Outcome.next.inj h
    rw [hl] at hc
    exact ⟨_, (combineAt_error hc).trans (raise_eq _ _ _), rfl, fun _ => rfl⟩
  | ok ops =>
    rw [combineAt_ok hc, respond_eq] at h
    obtain rfl := Host.Outcome.next.inj h
    rw [hl] at hc
    exact ⟨_, (combineAt_ok hc).trans (respond_eq _ _ _), rfl, fun h0 => absurd rfl h0⟩

/-- The code of a command does not depend on the words of S, nor does any response but a successful COMBINE's (R23). -/
theorem exec_code_words_irrelevant {i : Instr} {s u : State} (w : Words) (h : exec i s = .next u) :
    ∃ v, exec i { s with words := w } = .next v ∧ v.lastCode = u.lastCode ∧
      ((commandWord i = 0x00000001 ∨ commandWord i = 0x00000003 ∨ u.lastCode ≠ 0x00) → v.response = u.response) := by
  cases i with
  | init k n c => exact ⟨u, (execInit_words_irrelevant k n c s w).trans h, rfl, fun _ => rfl⟩
  | dispose =>
    rw [exec_dispose, execDispose_eq, respond_eq] at h
    obtain rfl := Host.Outcome.next.inj h
    exact ⟨_, (execDispose_eq _).trans (respond_eq _ _ _), rfl, fun _ => rfl⟩
  | combine o b x | combineB1 o b x | combineV16 o b x | combineV32 o b x | combineV64 o b x =>
    obtain ⟨v, hv, hc, hr⟩ := combineAt_code_congr (s := s) (s' := { s with words := w }) rfl h
    exact ⟨v, hv, hc, fun hor => hr (by simpa [commandWord] using hor)⟩

/-- An admissible transaction whose word is no command's is answered as illegal (R74, R78). -/
theorem issue_eq_illegal {t : Transaction} {e : Illegal} (hw : t.wf = true) (hd : decode t = .error e) (s : State) :
    issue t s = raise .illegalCommand t.a s := by
  simp only [issue, illegalCommand, hw, hd, if_true]

/-- Settles O46: an illegal word answers without looking at S, and a command's code and response are those of
`exec_code_words_irrelevant`. -/
theorem onlyCombineOutputDependsOnS : Obligations.OnlyCombineOutputDependsOnS := by
  intro t s u w h
  have hwf := issue_wf h
  rcases issue_cases t s with ⟨hf, -⟩ | ⟨-, ⟨e, he⟩, hi⟩ | ⟨-, i, hd, hi⟩
  · rw [hwf] at hf; cases hf
  · rw [hi, raise_eq] at h
    obtain rfl := Host.Outcome.next.inj h
    exact ⟨_, issue_eq_illegal hwf he _, rfl, fun _ => rfl⟩
  · rw [issue_eq_exec hwf hd, decode_cmd hd]
    exact exec_code_words_irrelevant w (hi ▸ h)

/-! ### The hidden buffers (R33, R235) -/

/-- States that differ at most in W, K and the draw counter agree on every other field, and conversely. -/
theorem sameButHidden_iff (s t : State) :
    s.sameButHidden t ↔ t.words = s.words ∧ t.life = s.life ∧ t.lastCode = s.lastCode ∧ t.capAuto = s.capAuto ∧
      t.queue = s.queue ∧ t.response = s.response := by
  cases s
  cases t
  simp [State.sameButHidden]

/-- One transaction from two such states ends in two such states: what it answers and leaves depends on S and LIFE, and
what it does not write stays the same on both sides. -/
theorem issue_sameButHidden {t : Transaction} {s s' u : State} (hs : s.sameButHidden s') (h : issue t s = .next u) :
    ∃ u', issue t s' = .next u' ∧ u.sameButHidden u' := by
  obtain ⟨hw, hl, -, hcap, hq, -⟩ := (sameButHidden_iff s s').mp hs
  obtain ⟨u', h'⟩ := issue_next (issue_wf h) s'
  obtain ⟨hr, hw', hl', hc'⟩ := issue_congr hw.symm hl.symm h h'
  obtain ⟨hcap1, hq1⟩ := issue_frame h
  obtain ⟨hcap2, hq2⟩ := issue_frame h'
  refine ⟨u', h', (sameButHidden_iff u u').mpr ⟨hw', hl', hc', ?_, ?_, hr⟩⟩
  · rw [hcap2, hcap, hcap1]
  · rw [hq2, hq, hq1]

/-- Settles O47: by induction on the commands, one transaction at a time. -/
theorem hiddenBuffersAreUnobservable : Obligations.HiddenBuffersAreUnobservable := by
  intro ts
  induction ts with
  | nil =>
    intro s s' t hs h
    obtain rfl := Host.Outcome.next.inj h
    exact ⟨s', rfl, hs⟩
  | cons c cs ih =>
    intro s s' t hs h
    obtain ⟨u, hu, ht⟩ := andThen_eq_next.mp h
    obtain ⟨u', hu', hsame⟩ := issue_sameButHidden hs hu
    obtain ⟨t', ht', hsame'⟩ := ih u u' t hsame ht
    exact ⟨t', andThen_eq_next.mpr ⟨u', hu', ht'⟩, hsame'⟩

end Sys2Proof.Machine
end

section
/-! PROOFS. What a command leaves unchanged, what COREs share, and the statements of 20_memory.md. -/

namespace Sys2Proof.Machine

/-! ### What a command leaves unchanged (R55) -/

/-- INIT writes none of CAP, the port, W, K and the draw counter (R132, R134). -/
theorem execInit_frame {k n : Buf} {c : Word} {s t : State} (h : execInit k n c s = .next t) :
    t.capAuto = s.capAuto ∧ t.queue = s.queue ∧ t.hidden = s.hidden ∧ t.draws = s.draws := by
  rcases execInit_inv h with ⟨-, -, -, -, ht⟩ | ⟨-, ht⟩ <;> rw [ht] <;> exact ⟨rfl, rfl, rfl, rfl⟩

/-- DISPOSE writes none of CAP, the port, W, K and the draw counter (R230). -/
theorem execDispose_frame {s t : State} (h : execDispose s = .next t) :
    t.capAuto = s.capAuto ∧ t.queue = s.queue ∧ t.hidden = s.hidden ∧ t.draws = s.draws := by
  rw [execDispose_eq, respond_eq] at h
  obtain rfl := Host.Outcome.next.inj h
  dsimp only
  split_ifs <;> exact ⟨rfl, rfl, rfl, rfl⟩

/-- COMBINE writes neither CAP nor the port, whether it fails or succeeds (R180). -/
theorem combineAt_frame {w : LaneWidth} {out inp : Buf} {x : Word} {s t : State}
    (h : combineAt w out inp x s = .next t) : t.capAuto = s.capAuto ∧ t.queue = s.queue := by
  rcases combineAt_inv h with ⟨c, -, rfl⟩ | ⟨-, -, -, -, hcap, hq, -⟩
  · exact ⟨rfl, rfl⟩
  · exact ⟨hcap, hq⟩

/-- The operands of a COMBINE with X = 0 pass its checks with a count of 0 only (R76). -/
theorem combineOperands_count_zero {life : Life} {out inp : Buf} {ops : CombineOperands}
    (h : combineOperands life out inp 0 = .ok ops) : ops.count = 0 := by
  obtain ⟨-, -, -, hx, -⟩ := combineOperands_eq_ok.mp h
  have h0 : countOf 0 = 0 := rfl
  omega

/-- A COMBINE with a count of 0, or with a code other than 0x00, runs no block step and so leaves W, K and the draw counter
(R194, R253, log 6, log 7). -/
theorem combineAt_keeps_hidden {w : LaneWidth} {out inp : Buf} {x : Word} {s t : State}
    (h : combineAt w out inp x s = .next t) (hx : x = 0 ∨ t.lastCode ≠ 0x00) :
    t.hidden = s.hidden ∧ t.draws = s.draws := by
  cases hc : combineOperands s.life out inp x with
  | error c =>
    rw [combineAt_error hc, raise_eq] at h
    obtain rfl := Host.Outcome.next.inj h
    exact ⟨rfl, rfl⟩
  | ok ops =>
    rw [combineAt_ok hc, respond_eq] at h
    obtain rfl := Host.Outcome.next.inj h
    rcases hx with rfl | hne
    · rw [combineOperands_count_zero hc]
      exact ⟨rfl, rfl⟩
    · exact absurd rfl hne

/-- Settles O45: by the three kinds of command; INIT and DISPOSE leave all four fields, a COMBINE form two of them always
and the other two under the statement's condition. -/
theorem commandsLeaveCapPortAndHidden : Obligations.CommandsLeaveCapPortAndHidden := by
  intro i s t h
  rcases exec_cases i s with ⟨k, n, c, -, he⟩ | ⟨o, b, x, hf, he⟩ | ⟨-, he⟩ <;> rw [he] at h
  · obtain ⟨hcap, hq, hkept⟩ := execInit_frame h
    exact ⟨hcap, hq, fun _ => hkept⟩
  · have hm : i ∈ combineForms o b x := by simpa [combineForms] using hf
    obtain ⟨hcap, hq⟩ := combineAt_frame h
    exact ⟨hcap, hq, fun hx => combineAt_keeps_hidden h (hx o b x hm)⟩
  · obtain ⟨hcap, hq, hkept⟩ := execDispose_frame h
    exact ⟨hcap, hq, fun _ => hkept⟩

/-! ### A system of COREs (R61, R262) -/

/-- A step of one CORE replaces that CORE by what its own step gives, and does nothing else (R61). -/
theorem stepCore_eq_next {cores : List State} {i : Fin cores.length} {sys : System} :
    System.stepCore ⟨cores⟩ i = .next sys ↔ ∃ t, step cores[i] = .next t ∧ ⟨cores.set i t⟩ = sys := by
  simp only [System.stepCore, andThen_eq_next, Host.Outcome.next.injEq]

/-- A system has a CORE at reset (R9). -/
theorem reset_cores_ne_nil : System.reset.cores ≠ [] := by
  simp [System.reset]

/-- Every CORE of a system is DISPOSED at reset (R262). -/
theorem reset_cores_disposed {s : State} (h : s ∈ System.reset.cores) : s.life = .disposed := by
  obtain ⟨i, -, rfl⟩ := List.mem_map.mp h
  rfl

/-- A CORE that would step to `b` still does after a step of another CORE, on the system that step left (R61). -/
theorem stepCore_set_other {cores : List State} {i j : Nat} (hj : j < cores.length) (hne : i ≠ j) (a : State) {b : State}
    (hb : step cores[j] = .next b) :
    ∃ h, System.stepCore ⟨cores.set i a⟩ ⟨j, h⟩ = .next ⟨(cores.set i a).set j b⟩ := by
  refine ⟨by simpa using hj, stepCore_eq_next.mpr ⟨b, ?_, rfl⟩⟩
  simpa [List.getElem_set_ne hne] using hb

/-- Settles O51: a step of a CORE sets one place of the list of COREs, and two settings of different places commute. -/
theorem coresAreIndependent : Obligations.CoresAreIndependent := by
  refine ⟨⟨reset_cores_ne_nil, fun _ => reset_cores_disposed⟩, fun cores i sys h => ?_,
    fun cores i j hi hj hne a b ha hb => ?_⟩
  · obtain ⟨t, ht, rfl⟩ := stepCore_eq_next.mp h
    exact ⟨List.length_set, ⟨t, ht, List.getElem?_set_self i.isLt⟩, fun j hji => List.getElem?_set_ne hji.symm⟩
  · refine ⟨⟨cores.set i a⟩, ⟨cores.set j b⟩, stepCore_eq_next.mpr ⟨a, ha, rfl⟩, stepCore_eq_next.mpr ⟨b, hb, rfl⟩,
      ⟨(cores.set i a).set j b⟩, stepCore_set_other hj hne a hb, ?_⟩
    rw [List.set_comm a b hne]
    exact stepCore_set_other hi hne.symm b ha

end Sys2Proof.Machine
end

section
/-! PROOFS. The decoder and the encoder, what the port refuses and what it answers as illegal, the assembler, and the
statements of 30_encoding.md. -/

namespace Sys2Proof

/-! ### Decoding (R70 to R75, R82) -/

/-- Every encoded command decodes to itself (R74, R82). -/
theorem decode_encode (i : Instr) : decode (encode i) = .ok i := by
  cases i with
  | init | dispose => rfl
  | combine | combineB1 | combineV16 | combineV32 | combineV64 =>
    simp [decode, encode, commandWord, res, opc, wid, combineOfWid]

/-- DISPOSE decodes from its word alone: its operands are ignored (R75). -/
theorem decode_disposeWord (a b : Buf) (x : Word) : decode ⟨0x00000003, a, b, x⟩ = .ok .dispose := rfl

/-- The encoder sends the operands of a command as they are, and DISPOSE none, so what it sends is admissible exactly
when the command is (R77). -/
theorem encode_wf (i : Instr) : (encode i).wf = i.wf := by
  cases i <;> rfl

/-- The encoder sends the command's word (R82). -/
theorem encode_cmd (i : Instr) : (encode i).cmd = commandWord i := by
  cases i <;> rfl

/-- Settles O8: six of the seven transactions are the encodings of their commands; DISPOSE needs its word only. -/
theorem legalWordsDecode : Obligations.LegalWordsDecode := fun a b x =>
  ⟨decode_encode (.init a b x), decode_encode (.combine a b x), decode_encode (.combineB1 a b x),
    decode_encode (.combineV16 a b x), decode_encode (.combineV32 a b x), decode_encode (.combineV64 a b x),
    decode_disposeWord a b x⟩

/-- The command a transaction decodes to, word by word (R74, R75). -/
theorem decode_eq_ok_iff (t : Transaction) (i : Instr) : decode t = .ok i ↔
    (t.cmd = 0x00000001 ∧ i = .init t.a t.b t.x) ∨ (t.cmd = 0x00000003 ∧ i = .dispose) ∨
    (t.cmd = 0x00000002 ∧ i = .combine t.a t.b t.x) ∨ (t.cmd = 0x00000102 ∧ i = .combineB1 t.a t.b t.x) ∨
    (t.cmd = 0x00000202 ∧ i = .combineV16 t.a t.b t.x) ∨ (t.cmd = 0x00000302 ∧ i = .combineV32 t.a t.b t.x) ∨
    (t.cmd = 0x00000402 ∧ i = .combineV64 t.a t.b t.x) := by
  obtain ⟨cmd, a, b, x⟩ := t
  obtain ⟨hInit, hAuto, hB1, hV16, hV32, hV64, hDispose⟩ := legalWordsDecode a b x
  constructor
  · intro h
    have hl : cmd ∈ legalWords := (decode_isOk_iff _).mp ⟨i, h⟩
    simp only [legalWords, List.mem_cons, List.not_mem_nil, or_false] at hl
    rcases hl with rfl | rfl | rfl | rfl | rfl | rfl | rfl
    all_goals
      simp only [hInit, hAuto, hB1, hV16, hV32, hV64, hDispose, Except.ok.injEq] at h
      subst h
      simp
  · rintro (⟨rfl, rfl⟩ | ⟨rfl, rfl⟩ | ⟨rfl, rfl⟩ | ⟨rfl, rfl⟩ | ⟨rfl, rfl⟩ | ⟨rfl, rfl⟩ | ⟨rfl, rfl⟩)
    all_goals assumption

/-- A transaction that decodes to a command with operands is that command's encoding (R75). -/
theorem encode_of_decode {t : Transaction} {i : Instr} (h : decode t = .ok i) (hi : i ≠ .dispose) : encode i = t := by
  obtain ⟨cmd, a, b, x⟩ := t
  rcases (decode_eq_ok_iff _ i).mp h with
    ⟨rfl, rfl⟩ | ⟨-, rfl⟩ | ⟨rfl, rfl⟩ | ⟨rfl, rfl⟩ | ⟨rfl, rfl⟩ | ⟨rfl, rfl⟩ | ⟨rfl, rfl⟩
  case inr.inl => exact absurd rfl hi
  all_goals rfl

/-- Settles O9: by the two round trips, `decode_encode` and `encode_of_decode`. -/
theorem decodeInvertsEncode : Obligations.DecodeInvertsEncode :=
  ⟨fun i => ⟨decode_encode i, encode_wf i⟩, fun _ _ h => ⟨(decode_cmd h).trans (encode_cmd _).symm, encode_of_decode h⟩⟩

/-- A word that is no command's does not decode (R74, R78). -/
theorem decode_eq_error_of_not_mem {t : Transaction} (h : t.cmd ∉ legalWords) : ∃ e, decode t = .error e := by
  cases hd : decode t with
  | error e => exact ⟨e, rfl⟩
  | ok i => exact absurd ((decode_isOk_iff t).mp ⟨i, hd⟩) h

/-! ### What the port admits (R77) -/

/-- A present buffer longer than `P_MAX_BUF` cannot be presented. -/
theorem Buf.wf_of_overlong {bytes : List Byte} (h : Config.maxBuf < bytes.length) : (Buf.present bytes).wf = false :=
  decide_eq_false (Nat.not_le.mpr h)

/-- A transaction is not admissible when operand A or B is longer than `P_MAX_BUF`. -/
theorem Transaction.wf_of_overlong {t : Transaction} {bytes : List Byte} (h : Config.maxBuf < bytes.length)
    (ht : t.a = .present bytes ∨ t.b = .present bytes) : t.wf = false := by
  rcases ht with ha | hb
  · rw [Transaction.wf, ha, Buf.wf_of_overlong h, Bool.false_and]
  · rw [Transaction.wf, hb, Buf.wf_of_overlong h, Bool.and_false]

end Sys2Proof

namespace Sys2Proof.Machine

/-- The port refuses a transaction that is not admissible, whatever its word (R77). -/
theorem issue_of_not_wf {t : Transaction} (h : t.wf = false) (s : State) : issue t s = .refused .bufferTooLong := by
  simp [issue, h]

/-- Settles O6: the step issues the transaction at the head of the port, and that transaction is not admissible. -/
theorem overlongBufferIsRefused : Obligations.OverlongBufferIsRefused := by
  intro s t rest bytes hq hlen ht
  rw [step_of_queue_eq_command hq]
  exact issue_of_not_wf (Transaction.wf_of_overlong hlen ht) _

/-- Settles O10: the seven legal words are `decode_eq_ok_iff`; every other word does not decode and is answered as
illegal. -/
theorem everyOtherWordIsIllegal : Obligations.EveryOtherWordIsIllegal := by
  refine ⟨decode_eq_ok_iff, fun t hw hc s => ?_⟩
  have hsub : legalWords ⊆ [0x00000001, 0x00000003, 0x00000002, 0x00000102, 0x00000202, 0x00000302, 0x00000402] := by
    decide
  obtain ⟨e, he⟩ := decode_eq_error_of_not_mem fun hl => hc (hsub hl)
  calc issue t s = raise .illegalCommand t.a s := issue_eq_illegal hw he s
    _ = .next { s with lastCode := 0x09, response := some ⟨0x09, t.a⟩ } := raise_eq _ _ _

/-! ### The assembler (R80, R82) -/

/-- A counter in range has a word, which reads as it (R80). -/
theorem ctrWord_eq_some {n : Int} (h0 : 0 ≤ n) (h : n < 2 ^ 32) : ∃ x, ctrWord n = some x ∧ (x.toNat : Int) = n := by
  refine ⟨BitVec.ofInt 32 n, if_pos ⟨h0, h⟩, ?_⟩
  rw [BitVec.toNat_ofInt]
  omega

/-- A count in the range of two's complement has a word, which reads as it (R76, R80). -/
theorem countWord_eq_some {n : Int} (h0 : -2 ^ 31 ≤ n) (h : n < 2 ^ 31) : ∃ x, countWord n = some x ∧ x.toInt = n :=
  ⟨BitVec.ofInt 32 n, if_pos ⟨h0, by omega⟩, BitVec.toInt_ofInt_eq_self (by decide) h0 h⟩

/-- An INIT line with values for its operands assembles to the encoding of its command. -/
theorem assemble_init {env : Bindings} {p q : BufOperand} {a b : Buf} {n : Int} {x : Word} (hp : p.eval env = some a)
    (hq : q.eval env = some b) (hx : ctrWord n = some x) : assemble env (.init p q n) = some (encode (.init a b x)) := by
  simp only [assemble, hp, hq, hx, encode, commandWord]

/-- A COMBINE line with values for its operands assembles to its suffix's word and those values. -/
theorem assemble_combine {env : Bindings} {p q : BufOperand} {a b : Buf} {n : Int} {x : Word}
    (w : Option WidthSuffix) (hp : p.eval env = some a) (hq : q.eval env = some b) (hx : countWord n = some x) :
    assemble env (.combine w p q n) = some ⟨combineWord w, a, b, x⟩ := by
  simp only [assemble, hp, hq, hx]

/-- The COMBINE form a suffix stands for, no suffix meaning AUTO (R72, R80). -/
def combineOfSuffix : Option WidthSuffix → Buf → Buf → Word → Instr
  | none | some .auto => .combine
  | some .b1 => .combineB1
  | some .v16 => .combineV16
  | some .v32 => .combineV32
  | some .v64 => .combineV64

/-- The assembler and the encoder agree on the word of each COMBINE form (R82). -/
theorem encode_combineOfSuffix (w : Option WidthSuffix) (a b : Buf) (x : Word) :
    encode (combineOfSuffix w a b x) = ⟨combineWord w, a, b, x⟩ := by
  rcases w with _ | _ | _ | _ | _ | _ <;> rfl

/-- Settles O11: each line assembles to the encoding of its command, and encodings decode. -/
theorem assembledLinesDecode : Obligations.AssembledLinesDecode := by
  intro env p q a b n hp hq
  refine ⟨fun h0 h => ?_, fun h0 h r hr => ?_, ⟨_, rfl, decode_encode .dispose⟩⟩
  · obtain ⟨x, hx, hn⟩ := ctrWord_eq_some h0 h
    exact ⟨_, x, assemble_init hp hq hx, decode_encode _, hn⟩
  · obtain ⟨x, hx, hn⟩ := countWord_eq_some h0 h
    have hform : r.2 = combineOfSuffix r.1 := by
      simp only [List.mem_cons, List.not_mem_nil, or_false] at hr
      rcases hr with rfl | rfl | rfl | rfl | rfl | rfl <;> rfl
    refine ⟨_, x, assemble_combine r.1 hp hq hx, ?_, hn⟩
    rw [hform, ← encode_combineOfSuffix]
    exact decode_encode _

end Sys2Proof.Machine
end

section
/-! PROOFS. The word primitives bit by bit, packing byte by byte, and the statements of 40_word_primitives.md. -/

namespace Sys2Proof.Machine

/-! ### Words (R100 to R102) -/

/-- `xor32` is bitwise (R101). -/
theorem xor32_getLsbD (a b : Word) (i : Nat) : (xor32 a b).getLsbD i = (a.getLsbD i ^^ b.getLsbD i) :=
  BitVec.getLsbD_xor

/-- Settles O12: the sum is `add32_toNat`, and the bits are `xor32_getLsbD`. -/
theorem addWrapsAndXorIsBitwise : Obligations.AddWrapsAndXorIsBitwise := fun a b =>
  ⟨add32_toNat a b, fun i _ => xor32_getLsbD a b i⟩

/-- A rotation has nothing to move in a word whose bits are all the same (R102). -/
theorem rotl32_of_bits_eq {x : Word} {c : Bool} (hx : ∀ i, i < 32 → x.getLsbD i = c) (n : Nat) (hn : n < 32) :
    rotl32 x n = x := by
  apply BitVec.eq_of_getLsbD_eq
  intro i hi
  rw [rotl32_getLsbD x n i hn hi, hx i hi, hx _ (Nat.mod_lt _ (by decide))]

/-- Settles O13: the bit law is `rotl32_getLsbD` with its index read over the integers, and the other three follow from
it. -/
theorem rotateLeftMovesBits : Obligations.RotateLeftMovesBits := by
  intro x n hn
  have hn' : n < 32 := by omega
  refine ⟨fun i hi => ?_, fun h1 => rotl32_rotl32 x n h1 hn', rotl32_of_bits_eq (c := false) (by decide) n hn',
    rotl32_of_bits_eq (c := true) (by decide) n hn'⟩
  have hidx : (((i : Int) - n) % 32).toNat = (i + 32 - n) % 32 := by omega
  rw [rotl32_getLsbD x n i hn' hi, hidx]

/-! ### Bytes (R103 to R105) -/

/-- Byte k of a packed word is bits 8k + 7 : 8k (R104). -/
theorem packLe_eq_ofFn (w : Word) : packLe w = List.ofFn fun k : Fin 4 => w.extractLsb' (8 * k) 8 := rfl

/-- A range of bytes within a buffer, read one by one. -/
theorem take_drop_eq_ofFn_byteAt {buf : List Byte} {i n : Nat} (h : i + n ≤ buf.length) :
    (buf.drop i).take n = List.ofFn fun k : Fin n => byteAt buf (i + k) := by
  apply List.ext_getElem
  · rw [List.length_take, List.length_drop, List.length_ofFn]
    omega
  · intro k _ hk
    rw [List.length_ofFn] at hk
    rw [List.getElem_take, List.getElem_drop, List.getElem_ofFn, byteAt_eq]

/-- Bit j of byte k of an unpacked word is bit 8k + j of the word (R103). -/
theorem unpackLe_getLsbD (buf : List Byte) (i : Nat) {k j : Nat} (hk : k < 4) (hj : j < 8) :
    (unpackLe buf i).getLsbD (8 * k + j) = (byteAt buf (i + k)).getLsbD j := by
  rw [← unpackLe_byte buf i k hk, BitVec.getLsbD_extractLsb', decide_eq_true hj, Bool.true_and]

/-- Packing an unpacked word gives back the four bytes of the buffer it was read from (R104). -/
theorem packLe_unpackLe_eq_take {buf : List Byte} {i : Nat} (h : i + 3 < buf.length) :
    packLe (unpackLe buf i) = (buf.drop i).take 4 := by
  rw [packLe_unpackLe, take_drop_eq_ofFn_byteAt h]
  rfl

/-- Settles O14: bit by bit by `unpackLe_getLsbD`, and by the two round trips `unpackLe_packLe` and
`packLe_unpackLe_eq_take`. -/
theorem packAndUnpackAreInverse : Obligations.PackAndUnpackAreInverse :=
  ⟨fun buf i _ _ _ hk hj => unpackLe_getLsbD buf i hk hj, unpackLe_packLe, fun _ _ h => packLe_unpackLe_eq_take h⟩

/-- The 64 bytes of `serialize` fall into 16 groups of four: byte 4i + k is byte k of the packed word i (R105). -/
theorem serialize_toList (v : Words) :
    (serialize v).toList = (List.ofFn fun i : Fin 16 => packLe v[i.val]).flatten := by
  have hword (i : Fin 16) (k : Fin 4) : (i.val * 4 + k.val) / 4 = i := by omega
  have hbyte (i : Fin 16) (k : Fin 4) : (i.val * 4 + k.val) % 4 = k := by omega
  rw [serialize, Vector.toList_ofFn]
  refine (List.ofFn_mul (m := 16) (n := 4) _).trans ?_
  simp only [hword, hbyte, packLe_eq_ofFn]

/-- Settles O15: by the groups of `serialize_toList`, one for each word of the vector. -/
theorem serializeConcatenatesPackedWords : Obligations.SerializeConcatenatesPackedWords := by
  intro v
  calc (serialize v).toList
      = (List.ofFn fun i : Fin 16 => packLe v[i.val]).flatten := serialize_toList v
    _ = ((Vector.ofFn fun i : Fin 16 => v[i.val]).toList.map packLe).flatten := by
        rw [Vector.toList_ofFn, List.map_ofFn, Function.comp_def]
    _ = v.toList.flatMap packLe := by rw [Vector.ofFn_getElem, List.flatMap_def]

end Sys2Proof.Machine
end

section
/-! PROOFS. How INIT ends, one lemma for each case of its operands, and the statements of 41_init.md. -/

namespace Sys2Proof.Machine

/-- The words of a successful INIT, written out in the layout of R132. -/
theorem init_words_eq (k n : List Byte) (ctr : Word) (w : Words) :
    nonceSetup n ctr (keySetup k w) = #v[0x61707865, 0x3320646e, 0x79622d32, 0x6b206574,
      unpackLe k 0, unpackLe k 4, unpackLe k 8, unpackLe k 12,
      unpackLe k 16, unpackLe k 20, unpackLe k 24, unpackLe k 28,
      ctr, unpackLe n 0, unpackLe n 4, unpackLe n 8] := by
  apply Vector.ext
  intro j hj
  rw [init_words_getElem k n ctr w j hj]
  interval_cases j <;> rfl

/-- An absent key is the first error of INIT (R130, R254). -/
theorem execInit_of_key_absent (nonce : Buf) (ctr : Word) (s : State) :
    execInit .absent nonce ctr s = respond .invalidKeyLengthNull .absent s.endCipher := rfl

/-- A key of the wrong length is an error whatever the nonce is (R130, R254). -/
theorem execInit_of_key_length_ne {k : List Byte} (hk : k.length ≠ 32) (nonce : Buf) (ctr : Word) (s : State) :
    execInit (.present k) nonce ctr s = respond .invalidKeyLength .absent s.endCipher := by
  rw [execInit_eq]
  cases nonce with
  | absent => exact if_neg hk
  | present n => exact if_neg hk

/-- A nonce that is absent or of the wrong length is the last error of INIT (R130, R134). -/
theorem execInit_of_nonce_invalid {k : List Byte} {nonce : Buf} (hk : k.length = 32)
    (hn : ∀ n, nonce = .present n → n.length ≠ 12) (ctr : Word) (s : State) :
    execInit (.present k) nonce ctr s = respond .invalidNonceLength .absent s.endCipher := by
  rw [execInit_eq]
  cases nonce with
  | absent => exact if_pos hk
  | present n => exact (if_pos hk).trans (if_neg (hn n rfl))

/-- INIT with a valid key and a valid nonce starts a new cipher (R130, R132). -/
theorem execInit_of_valid {k n : List Byte} (hk : k.length = 32) (hn : n.length = 12) (ctr : Word) (s : State) :
    execInit (.present k) (.present n) ctr s =
      respond .ok .absent { s with words := nonceSetup n ctr (keySetup k zeroWords), life := .ready } := by
  rw [execInit_eq]
  exact (if_pos hk).trans (if_pos hn)

/-- Settles O23: both operands are valid, and `init_words_eq` names the 16 words. -/
theorem initLoadsKeyCounterAndNonce : Obligations.InitLoadsKeyCounterAndNonce := by
  intro key nonce ctr s hk hn
  rw [exec_init, execInit_of_valid hk hn, init_words_eq, respond_eq]
  rfl

/-- Settles O24: each of the three errors ends the cipher and responds. -/
theorem failedInitZeroesEverything : Obligations.FailedInitZeroesEverything := by
  intro nonce ctr s
  refine ⟨?_, fun key hk => ?_, fun key hk hn => ?_⟩
  · rw [exec_init, execInit_of_key_absent]
    rfl
  · rw [exec_init, execInit_of_key_length_ne hk]
    rfl
  · rw [exec_init, execInit_of_nonce_invalid hk hn]
    rfl

/-- Settles O25: in each case of the operands O23 or O24 gives the ending from both states, and what it writes names
neither of them. -/
theorem initForgetsTheOldCipher : Obligations.InitForgetsTheOldCipher := by
  intro key nonce ctr s s'
  obtain ⟨habsent, hlength, hnonce⟩ := failedInitZeroesEverything nonce ctr s
  obtain ⟨habsent', hlength', hnonce'⟩ := failedInitZeroesEverything nonce ctr s'
  cases key with
  | absent => exact ⟨_, _, habsent, habsent', rfl, rfl, rfl, rfl⟩
  | present k =>
    by_cases hk : k.length = 32
    · by_cases hn : ∀ n, nonce = .present n → n.length ≠ 12
      · exact ⟨_, _, hnonce k hk hn, hnonce' k hk hn, rfl, rfl, rfl, rfl⟩
      · push Not at hn
        obtain ⟨n, rfl, hn⟩ := hn
        have hvalid := initLoadsKeyCounterAndNonce k n ctr
        exact ⟨_, _, hvalid s hk hn, hvalid s' hk hn, rfl, rfl, rfl, rfl⟩
    · exact ⟨_, _, hlength k hk, hlength' k hk, rfl, rfl, rfl, rfl⟩

end Sys2Proof.Machine
end

section
/-! PROOFS. The quarter-round and its rounds, the counter pair over many block steps, and the statements of
42_block.md. -/

namespace Sys2Proof.Machine

/-! ### The quarter-round in place (R151) -/

/-- W with four of its words replaced by those of a quad. -/
def writeQuad (a b c d : Fin 16) (q : Quad) (w : Words) : Words :=
  (((w.set a q.a).set b q.b).set c q.c).set d q.d

/-- The quarter-round writes back the mixed quad of the four words it reads (R151). -/
theorem qr_eq_writeQuad (a b c d : Fin 16) (w : Words) :
    qr a b c d w = writeQuad a b c d (quarterRound ⟨w[a], w[b], w[c], w[d]⟩) w := rfl

/-- Writing back the words that are there changes nothing. -/
theorem writeQuad_self (a b c d : Fin 16) (w : Words) : writeQuad a b c d ⟨w[a], w[b], w[c], w[d]⟩ w = w := by
  simp [writeQuad]

section
variable {a b c d : Fin 16} (h : [a, b, c, d].Nodup) (q : Quad) (w : Words) (x : Word)
include h

/-- Distinct indices, as the vector library's side conditions ask for them. -/
theorem val_ne_of_nodup : (a.val ≠ b ∧ a.val ≠ c ∧ a.val ≠ d) ∧ (b.val ≠ c ∧ b.val ≠ d) ∧ c.val ≠ d := by
  simpa [Fin.ext_iff] using h

theorem writeQuad_getElem_a : (writeQuad a b c d q w)[a] = q.a := by
  obtain ⟨⟨hab, hac, had⟩, -, -⟩ := val_ne_of_nodup h
  simp [writeQuad, hab.symm, hac.symm, had.symm]

theorem writeQuad_getElem_b : (writeQuad a b c d q w)[b] = q.b := by
  obtain ⟨-, ⟨hbc, hbd⟩, -⟩ := val_ne_of_nodup h
  simp [writeQuad, hbc.symm, hbd.symm]

theorem writeQuad_getElem_c : (writeQuad a b c d q w)[c] = q.c := by
  obtain ⟨-, -, hcd⟩ := val_ne_of_nodup h
  simp [writeQuad, hcd.symm]

omit h in
theorem writeQuad_getElem_d : (writeQuad a b c d q w)[d] = q.d := by
  simp [writeQuad]

theorem writeQuad_set_a : (writeQuad a b c d q w).set a x = writeQuad a b c d { q with a := x } w := by
  obtain ⟨⟨hab, hac, had⟩, -, -⟩ := val_ne_of_nodup h
  rw [writeQuad, Vector.set_comm _ _ had.symm, Vector.set_comm _ _ hac.symm, Vector.set_comm _ _ hab.symm,
    Vector.set_set, writeQuad]

theorem writeQuad_set_b : (writeQuad a b c d q w).set b x = writeQuad a b c d { q with b := x } w := by
  obtain ⟨-, ⟨hbc, hbd⟩, -⟩ := val_ne_of_nodup h
  rw [writeQuad, Vector.set_comm _ _ hbd.symm, Vector.set_comm _ _ hbc.symm, Vector.set_set, writeQuad]

theorem writeQuad_set_c : (writeQuad a b c d q w).set c x = writeQuad a b c d { q with c := x } w := by
  obtain ⟨-, -, hcd⟩ := val_ne_of_nodup h
  rw [writeQuad, Vector.set_comm _ _ hcd.symm, Vector.set_set, writeQuad]

omit h in
theorem writeQuad_set_d : (writeQuad a b c d q w).set d x = writeQuad a b c d { q with d := x } w := by
  rw [writeQuad, Vector.set_set, writeQuad]

/-- The quarter-round acts on the quad that stands in W. -/
theorem qr_writeQuad : qr a b c d (writeQuad a b c d q w) = writeQuad a b c d (quarterRound q) w := by
  rw [qr_eq_writeQuad, writeQuad_getElem_a h, writeQuad_getElem_b h, writeQuad_getElem_c h, writeQuad_getElem_d]
  rw [writeQuad, writeQuad_set_a h, writeQuad_set_b h, writeQuad_set_c h, writeQuad_set_d]

end

/-- Four zero words stay zero (R151). -/
theorem quarterRound_zero : quarterRound ⟨0, 0, 0, 0⟩ = ⟨0, 0, 0, 0⟩ := by decide

/-- Settles O16: starting from W as its own four words written back, each assignment updates one field of the quad. -/
theorem quarterRoundIsTheEightAssignments : Obligations.QuarterRoundIsTheEightAssignments := by
  refine ⟨fun w a b c d h => ?_, fun w a b c d ha hb hc hd => ?_⟩
  · rw [← writeQuad_self a b c d w]
    simp only [qr_writeQuad h, writeQuad_getElem_a h, writeQuad_getElem_b h, writeQuad_getElem_c h,
      writeQuad_getElem_d, writeQuad_set_a h, writeQuad_set_b h, writeQuad_set_c h, writeQuad_set_d]
    rfl
  · rw [qr_eq_writeQuad, ha, hb, hc, hd, quarterRound_zero]
    conv_rhs => rw [← writeQuad_self a b c d w, ha, hb, hc, hd]

/-! ### The quarter-round as a bijection (R151) -/

/-- A quarter of the quarter-round, its add, xor and rotate: `a += b; d = rotl(d ^ a, n)` (R151). -/
def addXorRotate (n : Nat) (q : Quad) : Quad :=
  { q with a := add32 q.a q.b, d := rotl32 (xor32 q.d (add32 q.a q.b)) n }

/-- The quad with its halves exchanged, which turns `c += d; b = rotl(b ^ c, n)` into `addXorRotate n`. -/
def swapHalves (q : Quad) : Quad := ⟨q.c, q.d, q.a, q.b⟩

/-- The quarter-round is four times the same quarter, on each half of the quad in turn (R151). -/
theorem quarterRound_eq_comp : quarterRound = swapHalves ∘ addXorRotate 7 ∘ swapHalves ∘ addXorRotate 8 ∘
    swapHalves ∘ addXorRotate 12 ∘ swapHalves ∘ addXorRotate 16 := rfl

theorem swapHalves_bijective : Function.Bijective swapHalves :=
  Function.Involutive.bijective fun _ => rfl

/-- Undoes `addXorRotate n`: `d = rotl(d, 32 - n) ^ a; a -= b`. -/
def undoAddXorRotate (n : Nat) (q : Quad) : Quad :=
  { q with a := q.a - q.b, d := xor32 (rotl32 q.d (32 - n)) q.a }

theorem addXorRotate_bijective {n : Nat} (h0 : 0 < n) (hn : n < 32) : Function.Bijective (addXorRotate n) := by
  refine Function.bijective_iff_has_inverse.mpr ⟨undoAddXorRotate n, fun q => ?_, fun q => ?_⟩
  · simp [undoAddXorRotate, addXorRotate, rotl32_rotl32 _ n h0 hn, xor32, add32]
  · have hrot : rotl32 (rotl32 q.d (32 - n)) n = q.d := by
      simpa [Nat.sub_sub_self hn.le] using rotl32_rotl32 q.d (32 - n) (by omega) (by omega)
    simp [undoAddXorRotate, addXorRotate, hrot, xor32, add32]

/-- Settles O17: each of the quarters is a bijection. -/
theorem quarterRoundIsBijective : Obligations.QuarterRoundIsBijective := by
  have hquarter {n : Nat} (h0 : 0 < n) (hn : n < 32) : Function.Bijective (swapHalves ∘ addXorRotate n) :=
    swapHalves_bijective.comp (addXorRotate_bijective h0 hn)
  rw [Obligations.QuarterRoundIsBijective, quarterRound_eq_comp]
  exact (hquarter (n := 7) (by decide) (by decide)).comp <| (hquarter (n := 8) (by decide) (by decide)).comp <|
    (hquarter (n := 12) (by decide) (by decide)).comp (hquarter (n := 16) (by decide) (by decide))

/-! ### The rounds (R152 to R155) -/

/-- The four indices of W one quarter-round reads and writes. -/
abbrev QuadIndices := Fin 16 × Fin 16 × Fin 16 × Fin 16

/-- The quarter-round on indices given as one value. -/
def qrAt (w : Words) (q : QuadIndices) : Words := qr q.1 q.2.1 q.2.2.1 q.2.2.2 w

def QuadIndices.toList (q : QuadIndices) : List (Fin 16) := [q.1, q.2.1, q.2.2.1, q.2.2.2]

/-- Quarter-rounds on pairwise disjoint words may be done in any order. -/
theorem foldl_qrAt_perm {l m : List QuadIndices} (h : l.Perm m)
    (hm : ∀ q ∈ m, ∀ r ∈ m, q = r ∨ ∀ i ∈ q.toList, ∀ j ∈ r.toList, i ≠ j) (w : Words) :
    l.foldl qrAt w = m.foldl qrAt w := by
  refine h.foldl_eq' (fun q hq r hr v => ?_) w
  rcases hm r (h.mem_iff.mp hr) q (h.mem_iff.mp hq) with rfl | hdisjoint
  · rfl
  · exact qr_comm _ _ _ _ _ _ _ _ v hdisjoint

/-- Settles O18: the four quarter-rounds of either round share no index. -/
theorem roundsDoNotDependOnOrder : Obligations.RoundsDoNotDependOnOrder := fun w _ =>
  ⟨fun h => foldl_qrAt_perm h (by decide) w, fun h => foldl_qrAt_perm h (by decide) w⟩

theorem doubleRounds_eq_iterate (n : Nat) (w : Words) : doubleRounds n w = doubleRound^[n] w := by
  induction n generalizing w with
  | zero => rfl
  | succ n ih => rw [doubleRounds, ih, Function.iterate_succ_apply]

/-- The mixer as a loop over ten rounds (R155). -/
theorem mix_eq_foldl (w : Words) : mix w = (List.range 10).foldl (fun w _ => doubleRound w) w := by
  rw [mix, doubleRounds_eq_iterate, List.foldl_const, List.length_range]

/-! ### The block step (R156 to R160) -/

/-- Byte `4i + b` of the block is byte `b` of the accumulated word `i` (R156, R157). -/
theorem keystream_getElem (s : Words) {i b : Nat} (hi : i < 16) (hb : b < 4) (h : 4 * i + b < 64) :
    (keystream s)[4 * i + b] = ((mix s)[i] + s[i]).extractLsb' (8 * b) 8 := by
  have hword : (4 * i + b) / 4 = i := by omega
  have hbyte : (4 * i + b) % 4 = b := by omega
  simp [keystream, serialize_getElem, accumulate, add32, hword, hbyte]

/-- Settles O19: the bytes by `keystream_getElem` and the loop of `mix_eq_foldl`, the words by the laws of `advance`. -/
theorem blockStepWritesOnlyTheCounter : Obligations.BlockStepWritesOnlyTheCounter := fun s =>
  ⟨fun i hi b hb h => by rw [block, keystream_getElem s hi hb h, mix_eq_foldl]; rfl,
    advance_counter s, advance_carry s, advance_other s⟩

/-! ### The counter pair over many block steps (R161 to R163) -/

/-- A successful INIT sets the counter pair to its counter and the low word of its nonce (R132, R161). -/
theorem counterPair_nonceSetup (k n : List Byte) (ctr : Word) (w : Words) :
    counterPair (nonceSetup n ctr (keySetup k w)) = (unpackLe n 0).toNat * 2 ^ 32 + ctr.toNat := by
  rw [init_words_eq]
  rfl

/-- Settles O20: `counterPair_iterate`, from any words and from those INIT leaves. -/
theorem counterPairIsA64BitCounter : Obligations.CounterPairIsA64BitCounter := by
  rw [Obligations.CounterPairIsA64BitCounter, block_snd]
  refine ⟨fun s n => ⟨counterPair_iterate s n, advance_iterate_other s n⟩, fun key nonce ctr s n hk hn => ?_⟩
  refine ⟨_, execInit_of_valid hk hn ctr s, ?_⟩
  rw [counterPair_iterate, counterPair_nonceSetup]

/-- The nonce low word gains one for each time the counter wraps (R159). -/
theorem advance_iterate_nonceLow (s : Words) (n : Nat) :
    (advance^[n] s)[13] = s[13] + BitVec.ofNat 32 ((s[12].toNat + n) / 2 ^ 32) := by
  have hdiv : (counterPair s + n) / 2 ^ 32 = s[13].toNat + (s[12].toNat + n) / 2 ^ 32 := by
    unfold counterPair
    omega
  rw [advance_iterate, withCounter, Vector.getElem_set_self, hdiv, BitVec.ofNat_add, BitVec.ofNat_toNat,
    BitVec.setWidth_eq]

/-- Settles O21: the counter has wrapped (2^32 - 2 + n) / 2^32 times. -/
theorem carryHappensOnceFrom0xFFFFFFFE : Obligations.CarryHappensOnceFrom0xFFFFFFFE := by
  intro s n h
  have hcounter : s[12].toNat = 2 ^ 32 - 2 := by rw [h]; rfl
  rw [block_snd, advance_iterate_nonceLow, hcounter]
  refine ⟨fun hlt => ?_, fun hle hlt => ?_⟩
  · have hnone : (2 ^ 32 - 2 + n) / 2 ^ 32 = 0 := by omega
    rw [hnone]
    exact BitVec.add_zero _
  · have honce : (2 ^ 32 - 2 + n) / 2 ^ 32 = 1 := by omega
    rw [honce]
    rfl

/-- Settles O22: block steps change the counter pair only, and the pair counts them modulo 2^64. -/
theorem blockInputsRepeatOnlyAfter2To64 : Obligations.BlockInputsRepeatOnlyAfter2To64 := by
  intro s m n
  rw [block_snd]
  have hpair : advance^[m] s = advance^[n] s ↔ counterPair (advance^[m] s) = counterPair (advance^[n] s) := by
    refine ⟨congrArg counterPair, words_ext_counter fun i hi h12 h13 => ?_⟩
    rw [advance_iterate_other s m i hi h12 h13, advance_iterate_other s n i hi h12 h13]
  refine ⟨hpair, hpair.trans ?_⟩
  rw [counterPair_iterate, counterPair_iterate]
  omega

end Sys2Proof.Machine
end

section
/-! PROOFS. The data path of COMBINE in closed form, how a COMBINE form ends, and the statements of 43_combine.md. -/

namespace Sys2Proof.Machine

/-! ### The data path in closed form (R180 to R190) -/

/-- The bytes a COMBINE of `n` bytes writes, as the cipher of the input's first `n` and the rest of the output (R181). -/
theorem eq_cipherOf_append_drop {r inp out : List Byte} {w : Words} {n : Nat} (hn : n ≤ inp.length)
    (hr : ∀ p, r[p]? = if p < n then some (byteAt inp p ^^^ keyByte w p) else out[p]?) :
    r = cipherOf w (inp.take n) ++ out.drop n := by
  have hlen : (cipherOf w (inp.take n)).length = n := by rw [cipherOf_length, List.length_take_of_le hn]
  apply List.ext_getElem?
  intro p
  rw [hr]
  split
  · next hp =>
    rw [List.getElem?_append_left (by omega), cipherOf_getElem?, if_pos (by rw [List.length_take_of_le hn]; exact hp)]
    simp [byteAt, List.getD_eq_getElem?_getD, List.getElem?_take_of_lt hp]
  · next hp =>
    rw [List.getElem?_append_right (by omega), hlen, List.getElem?_drop, Nat.add_sub_cancel' (by omega)]

/-- What the data path makes of its operands, in which no lane width is named (R181 to R185). -/
theorem combineData_eq (v : LaneWidth) {ops : CombineOperands} (w : Words) (hi : ops.count ≤ ops.inp.length)
    (ho : ops.count ≤ ops.out.length) :
    combineData v ops w =
      ⟨cipherOf w (ops.inp.take ops.count) ++ ops.out.drop ops.count, advance^[blocksFor ops.count] w⟩ := by
  obtain ⟨hw, -, hr⟩ := combineData_spec v ops w ho
  rw [← hw, ← eq_cipherOf_append_drop hi hr]

/-- A COMBINE is the same at every lane width (R190). -/
theorem combineAt_width_irrelevant (v w : LaneWidth) (out inp : Buf) (x : Word) (s : State) :
    combineAt v out inp x s = combineAt w out inp x s := by
  cases hc : combineOperands s.life out inp x with
  | error c => rw [combineAt_error hc, combineAt_error hc]
  | ok ops =>
    obtain ⟨-, -, -, -, hi, ho⟩ := combineOperands_eq_ok.mp hc
    rw [combineAt_ok hc, combineAt_ok hc, combineData_eq v _ hi ho, combineData_eq w _ hi ho]

/-- Every COMBINE form does what the scalar path does (R190). -/
theorem exec_combineForm_eq_scalar {out inp : Buf} {x : Word} {i : Instr} (hm : i ∈ combineForms out inp x)
    (s : State) : exec i s = combineAt .b1 out inp x s := by
  obtain ⟨w, he⟩ := exec_combineForm hm s
  exact he.trans (combineAt_width_irrelevant w .b1 out inp x s)

/-- A COMBINE answers and leaves the same in S, LIFE and LAST_CODE from states that agree on S and LIFE (R195). -/
theorem combineAt_congr (v : LaneWidth) (out inp : Buf) (x : Word) {s s' : State} (hw : s.words = s'.words)
    (hl : s.life = s'.life) :
    ∃ t t', combineAt v out inp x s = .next t ∧ combineAt v out inp x s' = .next t' ∧
      t.response = t'.response ∧ t.words = t'.words ∧ t.life = t'.life ∧ t.lastCode = t'.lastCode := by
  cases hc : combineOperands s.life out inp x with
  | error c =>
    rw [combineAt_error hc, combineAt_error (hl ▸ hc), raise_eq, raise_eq]
    exact ⟨_, _, rfl, rfl, rfl, hw, hl, rfl⟩
  | ok ops =>
    rw [combineAt_ok hc, combineAt_ok (hl ▸ hc), respond_eq, respond_eq, hw]
    refine ⟨_, _, rfl, rfl, rfl, rfl, ?_, rfl⟩
    dsimp only
    split_ifs
    · exact hl
    · exact hl

/-- Settles O31: every form does what the scalar path does. -/
theorem laneWidthHasNoEffect : Obligations.LaneWidthHasNoEffect := by
  intro out inp x s i hi j hj
  obtain ⟨t, ht⟩ := exec_next i s
  have hji : exec j s = exec i s := (exec_combineForm_eq_scalar hj s).trans (exec_combineForm_eq_scalar hi s).symm
  exact ⟨t, t, ht, hji.trans ht, rfl, rfl, rfl, rfl⟩

/-- Settles O35: both forms do what the scalar path does, which reads S, LIFE and the operands alone. -/
theorem combineIsDeterminedByStateAndOperands : Obligations.CombineIsDeterminedByStateAndOperands := by
  intro out inp x s s' hw hl i hi j hj
  rw [exec_combineForm_eq_scalar hi, exec_combineForm_eq_scalar hj]
  exact combineAt_congr .b1 out inp x hw hl

/-! ### The errors (R180, R254) -/

/-- A COMBINE form that fails a check answers its code and writes nothing but LAST_CODE and the response (R253). -/
theorem exec_combineForm_error {out inp : Buf} {x : Word} {i : Instr} {s : State} {c : Code}
    (hm : i ∈ combineForms out inp x) (hc : combineOperands s.life out inp x = .error c) :
    exec i s = .next { s with lastCode := c.byte, response := some ⟨c.byte, out⟩ } := by
  rw [exec_combineForm_eq_scalar hm, combineAt_error hc, raise_eq]

theorem combineOperands_of_disposed (out inp : Buf) (x : Word) :
    combineOperands .disposed out inp x = .error .useAfterDispose := rfl

theorem combineOperands_of_input_absent (out : Buf) (x : Word) :
    combineOperands .ready out .absent x = .error .nullInput := rfl

theorem combineOperands_of_output_absent (b : List Byte) (x : Word) :
    combineOperands .ready .absent (.present b) x = .error .nullOutput := rfl

theorem combineOperands_of_count_invalid (a : List Byte) {b : List Byte} {x : Word}
    (h : x.toInt < 0 ∨ (b.length : Int) < x.toInt) :
    combineOperands .ready (.present a) (.present b) x = .error .invalidLength := by
  rw [← countOf_eq_toInt] at h
  exact if_pos h

theorem combineOperands_of_output_short {a b : List Byte} {x : Word} (h0 : 0 ≤ x.toInt) (hb : x.toInt ≤ b.length)
    (ha : (a.length : Int) < x.toInt) :
    combineOperands .ready (.present a) (.present b) x = .error .bufferTooSmall := by
  rw [← countOf_eq_toInt] at h0 hb ha
  exact (if_neg (by omega)).trans (if_pos ha)

/-- Settles O29: each clause is the first check that fails, and a failed check only answers. -/
theorem combineErrorsInPriorityOrder : Obligations.CombineErrorsInPriorityOrder := by
  intro out inp x s i hm
  refine ⟨fun hd => ?_, fun hr hi => ?_, fun hr hi ho => ?_, fun a b hr ho hi h => ?_, fun a b hr ho hi h0 hb ha => ?_⟩
  · exact exec_combineForm_error hm (hd ▸ combineOperands_of_disposed out inp x)
  · subst hi
    exact exec_combineForm_error hm (hr ▸ combineOperands_of_input_absent out x)
  · subst ho
    cases inp with
    | absent => exact absurd rfl hi
    | present b => exact exec_combineForm_error hm (hr ▸ combineOperands_of_output_absent b x)
  · subst ho hi
    exact exec_combineForm_error hm (hr ▸ combineOperands_of_count_invalid a h)
  · subst ho hi
    exact exec_combineForm_error hm (hr ▸ combineOperands_of_output_short h0 hb ha)

/-! ### Success or nothing (R185, R192, R194) -/

/-- Settles O27: `combineAt_words`, with the counter pair counting the block steps. -/
theorem combineAdvancesCounterPerBlock : Obligations.CombineAdvancesCounterPerBlock := by
  intro out inp x s t i hm h
  rw [exec_combineForm_eq_scalar hm] at h
  obtain ⟨-, ⟨hc, n, hx, hw⟩ | ⟨hc, hw⟩⟩ := combineAt_words h
  · refine ⟨fun _ => ⟨n, hx, hw, ?_⟩, fun hne => absurd hc hne⟩
    rw [hw, counterPair_iterate]
  · exact ⟨fun h0 => absurd h0 hc, fun _ => hw⟩

/-- Settles O30: by the two ways a COMBINE can end. -/
theorem combineIsAllOrNothing : Obligations.CombineIsAllOrNothing := by
  intro out inp x s t i hm h
  rw [exec_combineForm_eq_scalar hm] at h
  rcases combineAt_cases .b1 out inp x s with ⟨c, hc, hr⟩ | ⟨ops, u, hok, hu, hw, -, -, -, -, r, hresp, -, hr⟩
  · rw [hr, raise_eq] at h
    exact .inr ⟨c.byte, combineOperands_error_byte_ne_zero hc, (Host.Outcome.next.inj h).symm⟩
  · rw [hu] at h
    obtain rfl := Host.Outcome.next.inj h
    obtain ⟨-, hout, hinp, hx, hi, ho⟩ := combineOperands_eq_ok.mp hok
    rw [countOf_eq_toInt] at hx
    refine .inl ⟨ops.out, ops.inp, r, ops.count, hout, hinp, hx, hi, ho, hresp, fun p hp hpn => ?_, ?_⟩
    · rw [hr, if_pos hpn, byteAt_eq _ _ hp]
    · rw [hw, counterPair_iterate, blocksFor_eq_ceil]

/-- With a count of 0 the data path does nothing (R194). -/
theorem combineData_count_zero (v : LaneWidth) (out inp : List Byte) (w : Words) :
    combineData v ⟨out, inp, 0⟩ w = ⟨out, w⟩ := by
  simp [combineData_eq, cipherOf, blocksFor]

/-- Settles O34: the operands pass with a count of 0, for which no block step runs. -/
theorem combineOfNothing : Obligations.CombineOfNothing := by
  intro out inp s hr i hm
  have hok : combineOperands s.life (.present out) (.present inp) 0 = .ok ⟨out, inp, 0⟩ :=
    combineOperands_eq_ok.mpr ⟨hr, rfl, rfl, rfl, Nat.zero_le _, Nat.zero_le _⟩
  rw [exec_combineForm_eq_scalar hm, combineAt_ok hok, combineData_count_zero]
  rfl

/-! ### What a successful COMBINE leaves (R180 to R187, R193) -/

/-- Settles O26: the scalar path's success byte by byte, its block steps counted by the counter pair. -/
theorem combineXorsKeystream : Obligations.CombineXorsKeystream := by
  intro out inp x n s hr hx hi ho i hm
  obtain ⟨t, r, ht, hw, hl, hc, hcap, hq, hresp, hlen, hbyte⟩ := combineAt_success .b1 hr hx hi ho
  refine ⟨t, r, (exec_combineForm_eq_scalar hm s).trans ht, hresp, hc, hlen, fun p hp hpn => ?_, fun p hnp => ?_, ?_,
    fun j hj h12 h13 => ?_, hl.trans hr, cap_congr hcap, hq⟩
  · rw [hbyte, if_pos hpn, byteAt_eq _ _ hp, keyByte]
  · rw [hbyte, if_neg (by omega)]
  · rw [hw, counterPair_iterate, blocksFor_eq_ceil]
  · simp only [hw]
    exact advance_iterate_other s.words _ j hj h12 h13

/-- How a COMBINE form whose operands pass ends, with its output written as a cipher (R180 to R186). -/
theorem exec_combineForm_success {out inp : List Byte} {x : Word} {n : Nat} {i : Instr} {s : State}
    (hm : i ∈ combineForms (.present out) (.present inp) x) (hr : s.life = .ready) (hx : x.toInt = n)
    (hi : n ≤ inp.length) (ho : n ≤ out.length) :
    ∃ t, exec i s = .next t ∧ t.life = .ready ∧ t.words = advance^[blocksFor n] s.words ∧
      t.response = some ⟨0x00, .present (cipherOf s.words (inp.take n) ++ out.drop n)⟩ := by
  obtain ⟨t, r, ht, hw, hl, -, -, -, hresp, -, hbyte⟩ := combineAt_success .b1 hr hx hi ho
  rw [eq_cipherOf_append_drop hi hbyte] at hresp
  exact ⟨t, (exec_combineForm_eq_scalar hm s).trans ht, hl.trans hr, hw, hresp⟩

/-- A COMBINE form on buffers of exactly the count answers the cipher of its input. -/
theorem exec_combineForm_whole {out inp : List Byte} {x : Word} {i : Instr} {s : State}
    (hm : i ∈ combineForms (.present out) (.present inp) x) (hr : s.life = .ready) (hx : x.toInt = inp.length)
    (ho : out.length = inp.length) :
    ∃ t, exec i s = .next t ∧ t.life = .ready ∧ t.words = advance^[blocksFor inp.length] s.words ∧
      t.response = some ⟨0x00, .present (cipherOf s.words inp)⟩ := by
  obtain ⟨t, ht, hl, hw, hresp⟩ := exec_combineForm_success hm hr hx le_rfl ho.ge
  rw [List.take_length, List.drop_eq_nil_of_le ho.le, List.append_nil] at hresp
  exact ⟨t, ht, hl, hw, hresp⟩

/-- The first `n` bytes of a COMBINE's output are the cipher of the input's first `n` (R181). -/
theorem take_cipherOf_append {bs : List Byte} {n : Nat} (h : n ≤ bs.length) (w : Words) (rest : List Byte) :
    (cipherOf w (bs.take n) ++ rest).take n = cipherOf w (bs.take n) :=
  List.take_left' (by rw [cipherOf_length, List.length_take_of_le h])

/-- A valid INIT ends READY with words that its operands alone determine (R132, R133). -/
theorem exec_init_of_valid {key nonce : List Byte} (hk : key.length = 32) (hn : nonce.length = 12) (ctr : Word)
    (s : State) :
    ∃ t, exec (.init (.present key) (.present nonce) ctr) s = .next t ∧ t.life = .ready ∧
      t.words = nonceSetup nonce ctr (keySetup key zeroWords) :=
  ⟨_, execInit_of_valid hk hn ctr s, rfl, rfl⟩

/-- Settles O32: INIT leaves the same words both times, and the cipher undoes itself. -/
theorem encryptingTwiceGivesThePlaintext : Obligations.EncryptingTwiceGivesThePlaintext := by
  intro key nonce out out' plain ctr x n s s' hk hn hx hp ho ho' i hi
  obtain ⟨s1, h1, hr1, hw1⟩ := exec_init_of_valid hk hn ctr s
  obtain ⟨s2, h2, -, -, hresp⟩ := exec_combineForm_success hi hr1 hx hp ho
  refine ⟨s1, s2, _, h1, h2, hresp, fun j hj => ?_⟩
  have hc : n ≤ (cipherOf s1.words (plain.take n) ++ out.drop n).length := by
    rw [List.length_append, cipherOf_length, List.length_take_of_le hp]
    exact Nat.le_add_right _ _
  obtain ⟨s3, h3, hr3, hw3⟩ := exec_init_of_valid hk hn ctr s'
  obtain ⟨s4, h4, -, -, hresp'⟩ := exec_combineForm_success hj hr3 hx hc ho'
  refine ⟨s3, s4, _, h3, h4, hresp', ?_⟩
  rw [take_cipherOf_append hc, take_cipherOf_append hp, hw3.trans hw1.symm, cipherOf_cipherOf]

/-- Byte `q` of the cipher from `m` block steps on comes from the block `m + q / 64` later (R187). -/
theorem cipherOf_iterate_getElem? (w : Words) (m : Nat) {bs : List Byte} {q : Nat} (hq : q < bs.length) :
    (cipherOf (advance^[m] w) bs)[q]? =
      some (bs[q] ^^^ (keystream (withCounter w (counterPair w + m + q / 64)))[q % 64]) := by
  rw [cipherOf_getElem?, if_pos hq, byteAt_eq _ _ hq, advance_iterate, keyByte_withCounter]

/-- Fewer than 2^64 block steps from the same words end the same only after equally many (R163). -/
theorem advance_iterate_inj {w : Words} {m n : Nat} (hm : m < 2 ^ 64) (hn : n < 2 ^ 64) :
    advance^[m] w = advance^[n] w ↔ m = n := by
  obtain ⟨-, h⟩ := blockInputsRepeatOnlyAfter2To64 w m n
  rwa [block_snd, Nat.mod_eq_of_lt hm, Nat.mod_eq_of_lt hn] at h

/-- Settles O33: the outputs join where the first COMBINE ends a block (`cipherOf_append`) or the second is empty, and S
tells the numbers of block steps apart. -/
theorem splittingACombine : Obligations.SplittingACombine := by
  intro b1 b2 o1 o2 o x1 x2 x s hr hx1 hx2 hx ho1 ho2 ho i1 hi1 i2 hi2 i hi
  rw [← List.length_append] at hx ho
  obtain ⟨s1, h1, hr1, hw1, hresp1⟩ := exec_combineForm_whole hi1 hr hx1 ho1
  obtain ⟨s2, h2, -, hw2, hresp2⟩ := exec_combineForm_whole hi2 hr1 hx2 ho2
  obtain ⟨t, ht, -, hw, hresp⟩ := exec_combineForm_whole hi hr hx ho
  refine ⟨s1, s2, t, _, _, _, h1, h2, ht, hresp1, hresp2, hresp, fun q hq => ?_, ?_, ?_⟩
  · rw [hw1, cipherOf_iterate_getElem? _ _ hq, blocksFor_eq_ceil]
  · rintro (hblocks | hempty)
    · rw [hw1, cipherOf_append _ _ _ hblocks]
    · obtain rfl := List.eq_nil_of_length_eq_zero hempty
      simp [cipherOf]
  · have hlt : x.toInt < 2 ^ 31 := BitVec.toInt_lt
    rw [List.length_append] at hx hw
    rw [hw2, hw1, hw, ← Function.iterate_add_apply, blocksFor_eq_ceil, blocksFor_eq_ceil, blocksFor_eq_ceil,
      advance_iterate_inj (by omega) (by omega), Nat.add_comm]

end Sys2Proof.Machine
end

section
/-! PROOFS. The one-command HOST procedures, the loop of a stream round by round, and the statements of
44_streaming.md. -/

namespace Sys2Proof.Machine

/-! ### ENCRYPT_ALLOC and the text procedures (R217 to R219) -/

/-- The count operand reads as the length given, or as the input's length if none is (R76, R217). -/
theorem countOperand_toInt {inp : List Byte} {len : Option Word} {n : Nat} (hi : inp.length ≤ 2 ^ 31 - 1)
    (hnone : len = none → n = inp.length) (hsome : ∀ x, len = some x → x.toInt = n) :
    (countOperand (.present inp) len).toInt = n := by
  cases len with
  | none =>
    rw [hnone rfl]
    exact toInt_ofNat32 (Nat.lt_of_le_of_lt hi (by decide))
  | some x => exact hsome x rfl

/-- ENCRYPT_ALLOC of a count within the input answers the cipher of the bytes counted (R218). -/
theorem encryptAlloc_success {inp : List Byte} {len : Option Word} {n : Nat} {s : State} (hr : s.life = .ready)
    (hi : inp.length ≤ 2 ^ 31 - 1) (hx : (countOperand (.present inp) len).toInt = n) (hn : n ≤ inp.length) :
    ∃ t, encryptAlloc (.present inp) len s = .next (t, ⟨0x00, .present (cipherOf s.words (inp.take n))⟩) := by
  have hout : (countOf (countOperand (.present inp) len)).toNat = n := by rw [countOf_eq_toInt, hx, Int.toNat_natCast]
  have hlen : (zeros n).length = n := List.length_replicate
  obtain ⟨t, ht, -, -, hresp⟩ := exec_combineForm_success (i := .combine (.present (zeros n)) (.present inp) _)
    List.mem_cons_self hr hx hn hlen.ge
  rw [List.drop_eq_nil_of_le hlen.le, List.append_nil] at hresp
  refine ⟨t, ?_⟩
  rw [encryptAlloc, hout]
  exact command_next (by simp [Instr.wf, Buf.wf, Config.maxBuf, hlen]; omega) ht hresp

/-- ENCRYPT_ALLOC without a length answers the cipher of the whole input (R218). -/
theorem encryptAlloc_whole {inp : List Byte} {s : State} (hr : s.life = .ready) (hi : inp.length ≤ 2 ^ 31 - 1) :
    ∃ t, encryptAlloc (.present inp) none s = .next (t, ⟨0x00, .present (cipherOf s.words inp)⟩) := by
  have hx := countOperand_toInt hi (fun _ => rfl) (fun x (h : none = some x) => nomatch h)
  have h := encryptAlloc_success hr hi hx le_rfl
  rwa [List.take_length] at h

/-- Settles O52: the answer is the cipher of the input's first `n` bytes, which has their length and, byte by byte, their
keystream. -/
theorem encryptAllocReturnsEveryByte : Obligations.EncryptAllocReturnsEveryByte := by
  intro inp len n s hr hi hnone hsome hn
  obtain ⟨t, ht⟩ := encryptAlloc_success hr hi (countOperand_toInt hi hnone hsome) hn
  have hlen : (inp.take n).length = n := List.length_take_of_le hn
  refine ⟨t, _, ht, (cipherOf_length _ _).trans hlen, fun p hp hpn => ?_⟩
  rw [cipherOf_getElem?, if_pos (by omega), byteAt_eq _ _ (by omega), List.getElem_take]

/-- Decoding takes one scalar off for each one encoded, and a scalar is at least one byte (R219). -/
theorem utf8DecodeFuel_encode (text : List Char) (fuel : Nat) (h : (utf8Encode text).length ≤ fuel) :
    utf8DecodeFuel fuel (utf8Encode text) = some text := by
  induction text generalizing fuel with
  | nil => cases fuel <;> rfl
  | cons c cs ih =>
    have hsplit : utf8Encode (c :: cs) = utf8EncodeScalar c.toNat ++ utf8Encode cs := rfl
    have hnext := utf8Next_encode c (utf8Encode cs)
    rw [hsplit, List.length_append] at h
    rw [hsplit]
    cases hs : utf8EncodeScalar c.toNat with
    | nil => exact absurd hs (utf8EncodeScalar_ne_nil _)
    | cons b bs =>
      rw [hs, List.length_cons] at h
      rw [hs, List.cons_append] at hnext
      cases fuel with
      | zero => omega
      | succ fuel => simp only [List.cons_append, utf8DecodeFuel, hnext, ih fuel (by omega), Option.map_some]

/-- Settles O53: the fuel is the number of bytes. -/
theorem utf8RoundTrip : Obligations.Utf8RoundTrip := fun text => utf8DecodeFuel_encode text _ le_rfl

/-- DECRYPT_TO_TEXT of bytes whose cipher is an encoded text answers the text (R219). -/
theorem decryptToText_success {bs : List Byte} {text : List Char} {s : State} (hr : s.life = .ready)
    (hi : bs.length ≤ 2 ^ 31 - 1) (ht : cipherOf s.words bs = utf8Encode text) :
    ∃ t, decryptToText (.present bs) s = .next (t, .text text) := by
  obtain ⟨t, h⟩ := encryptAlloc_whole hr hi
  refine ⟨t, ?_⟩
  rw [decryptToText, decryptAlloc, h, andThen_next, ht]
  simp only [Code.byte, if_true, bufBytes, utf8RoundTrip text]

/-- Settles O54: INIT leaves the same words both times, the cipher undoes itself, and decoding inverts encoding. -/
theorem textRoundTrip : Obligations.TextRoundTrip := by
  intro key nonce ctr text s s' hk hn hlen
  obtain ⟨s1, h1, hr1, hw1⟩ := exec_init_of_valid hk hn ctr s
  obtain ⟨s3, h3, hr3, hw3⟩ := exec_init_of_valid hk hn ctr s'
  obtain ⟨s2, h2⟩ := encryptAlloc_whole hr1 hlen
  obtain ⟨s4, h4⟩ := decryptToText_success (bs := cipherOf s1.words (utf8Encode text)) (text := text) hr3
    (by rwa [cipherOf_length]) (by rw [hw3.trans hw1.symm, cipherOf_cipherOf])
  exact ⟨s1, s2, s3, s4, _, h1, h2, h3, h4⟩

/-! ### The checks before the first read (R210, R211, R215) -/

/-- A chunk size out of range is refused whatever else is wrong (R211). -/
theorem streamStart_of_chunk_invalid {chunk : Int} (h : chunk < 1 ∨ 2 ^ 31 - 1 < chunk) (source sink : Bool)
    (s : State) : streamStart source sink chunk s = .refused .chunkOutOfRange :=
  if_pos (h.imp id fun h => by simpa [Config.maxBuf] using h)

/-- The first check a stream with a chunk size in range fails: lifecycle, source, sink; none if it may read (R210,
R215). -/
def startPhase (life : Life) (sourcePresent sinkPresent : Bool) : Phase :=
  match life, sourcePresent, sinkPresent with
  | .disposed, _, _ => .ended (.failed 0x08)
  | .ready, false, _ => .ended (.failed 0x04)
  | .ready, true, false => .ended (.failed 0x05)
  | .ready, true, true => .reading

/-- With a chunk size in range a stream starts with the CORE as it is, zeroed chunk buffers and an empty sink, where its
checks put it (R210). -/
theorem streamStart_of_chunk_valid {chunk : Int} (h1 : 1 ≤ chunk) (h2 : chunk ≤ 2 ^ 31 - 1) (source sink : Bool)
    (s : State) : streamStart source sink chunk s =
      .next ⟨s, chunk.toNat, zeros chunk.toNat, zeros chunk.toNat, [], startPhase s.life source sink⟩ := by
  have hready := statusReady_iff s
  unfold streamStart
  rw [if_neg (by simp [Config.maxBuf]; omega)]
  cases hl : s.life
  · have hs : s.statusReady = false := by simpa [hl] using hready
    simp [hs, startPhase, Code.byte]
  · have hs : s.statusReady = true := by simpa [hl] using hready
    cases source <;> cases sink <;> simp [hs, startPhase, Code.byte]

/-- A stream that starts, starts at its first read or ended. -/
theorem streamStart_phase {source sink : Bool} {chunk : Int} {s : State} {t : Task}
    (h : streamStart source sink chunk s = .next t) : t.phase = .reading ∨ ∃ v, t.phase = .ended v := by
  by_cases hc : chunk < 1 ∨ 2 ^ 31 - 1 < chunk
  · rw [streamStart_of_chunk_invalid hc] at h
    cases h
  · rw [streamStart_of_chunk_valid (by omega) (by omega)] at h
    obtain rfl := Host.Outcome.next.inj h
    cases hl : s.life <;> cases source <;> cases sink <;> simp [startPhase]

/-- A stream that starts at its first read runs the loop. -/
theorem encryptStream_of_start_reading {writes : List WriteTurn} {reads : List ReadTurn} {chunk : Int} {s : State}
    {t : Task} (h : streamStart true true chunk s = .next t) (ht : t.phase = .reading) :
    encryptStream (some writes) (some reads) chunk s = streamLoop reads writes t := by
  simp [encryptStream, h, ht]

/-- A stream that a check ends does nothing further. -/
theorem encryptStream_of_start_ended {sink : Option (List WriteTurn)} {source : Option (List ReadTurn)} {chunk : Int}
    {s : State} {t : Task} {v : Verdict} (h : streamStart source.isSome sink.isSome chunk s = .next t)
    (ht : t.phase = .ended v) : encryptStream sink source chunk s = .next t := by
  simp [encryptStream, h, ht]

/-- Settles O55: each clause is the first check that fails, and the stream ends where it started. -/
theorem streamChecksBeforeTheFirstRead : Obligations.StreamChecksBeforeTheFirstRead := by
  intro sink source chunk s
  refine ⟨fun hc => ?_, fun h1 h2 => ?_⟩
  · rw [encryptStream, streamStart_of_chunk_invalid hc]
    rfl
  · have hend {v : Verdict} (hv : startPhase s.life source.isSome sink.isSome = .ended v) :
        ∃ t, encryptStream sink source chunk s = .next t ∧ t.phase = .ended v ∧ t.core = s ∧ t.sink = [] :=
      ⟨_, encryptStream_of_start_ended (streamStart_of_chunk_valid h1 h2 _ _ s) hv, hv, rfl, rfl⟩
    refine ⟨fun hd => hend ?_, fun hr hsource => hend ?_, fun hr hsource hsink => hend ?_⟩
    · rw [hd]
      rfl
    · rw [hr, hsource]
      rfl
    · rw [hr, hsink, Option.isSome_iff_ne_none.mpr hsource]
      rfl

/-! ### The loop, one round at a time (R210, R216) -/

/-- A turn at a read: other agents' commands, then the source's answer. -/
def takeRead (r : ReadTurn) (t : Task) : Result Task := andThen (onOthers r.others t) (onRead r.answer)

/-- A turn at a write of `n` bytes: other agents' commands, then the sink's answer. -/
def takeWrite (w : WriteTurn) (n : Nat) (t : Task) : Result Task := andThen (onOthers w.others t) (onWrite w.answer n)

/-- A turn at a read without other agents' commands is the source's answer. -/
theorem takeRead_nil (a : ReadAnswer) (t : Task) : takeRead ⟨[], a⟩ t = onRead a t := rfl

/-- A turn at a write without other agents' commands is the sink's answer. -/
theorem takeWrite_nil (a : WriteAnswer) (n : Nat) (t : Task) : takeWrite ⟨[], a⟩ n t = onWrite a n t := rfl

section
variable {t t₁ t₂ : Task} {r : ReadTurn} {w : WriteTurn} {n : Nat} {v : Verdict}

/-- A round whose read ends the stream. -/
theorem streamLoop_of_read_ended (hr : takeRead r t = .next t₁) (hp : t₁.phase = .ended v) (reads : List ReadTurn)
    (writes : List WriteTurn) : streamLoop (r :: reads) writes t = .next t₁ := by
  rw [takeRead] at hr
  simp only [streamLoop, hr, andThen_next, hp]

/-- A round whose write never answers (R216). -/
theorem streamLoop_of_write_stuck (hr : takeRead r t = .next t₁) (hp : t₁.phase = .writing n) (reads : List ReadTurn) :
    streamLoop (r :: reads) [] t = .fault .channelNeverAnswers := by
  rw [takeRead] at hr
  simp only [streamLoop, hr, andThen_next, hp]

/-- A round whose write ends the stream. -/
theorem streamLoop_of_write_ended (hr : takeRead r t = .next t₁) (hp : t₁.phase = .writing n)
    (hw : takeWrite w n t₁ = .next t₂) (hp₂ : t₂.phase = .ended v) (reads : List ReadTurn) (writes : List WriteTurn) :
    streamLoop (r :: reads) (w :: writes) t = .next t₂ := by
  rw [takeRead] at hr
  rw [takeWrite] at hw
  simp only [streamLoop, hr, andThen_next, hp, hw, hp₂]

/-- A round that is read and written goes on to the next read. -/
theorem streamLoop_of_written (hr : takeRead r t = .next t₁) (hp : t₁.phase = .writing n)
    (hw : takeWrite w n t₁ = .next t₂) (hp₂ : t₂.phase = .reading) (reads : List ReadTurn) (writes : List WriteTurn) :
    streamLoop (r :: reads) (w :: writes) t = streamLoop reads writes t₂ := by
  rw [takeRead] at hr
  rw [takeWrite] at hw
  simp only [streamLoop, hr, andThen_next, hp, hw, hp₂]

end

/-- Where a stream stands when a read has answered: ended, or at the write of its chunk. -/
theorem onRead_phase {a : ReadAnswer} {t t' : Task} (h : onRead a t = .next t') :
    (∃ v, t'.phase = .ended v) ∨ ∃ n, t'.phase = .writing n := by
  cases a with
  | error e =>
    obtain rfl := Host.Outcome.next.inj h
    exact .inl ⟨_, rfl⟩
  | bytes bs =>
    simp only [onRead] at h
    split_ifs at h
    · obtain rfl := Host.Outcome.next.inj h
      exact .inl ⟨_, rfl⟩
    · obtain ⟨⟨core, reply⟩, -, h⟩ := andThen_eq_next.mp h
      dsimp only at h
      split_ifs at h <;> obtain rfl := Host.Outcome.next.inj h
      · exact .inr ⟨_, rfl⟩
      · exact .inl ⟨_, rfl⟩

/-- Where a stream stands when a write has answered: ended, or at its next read. -/
theorem onWrite_phase {a : WriteAnswer} {n : Nat} {t t' : Task} (h : onWrite a n t = .next t') :
    (∃ v, t'.phase = .ended v) ∨ t'.phase = .reading := by
  cases a <;> obtain rfl := Host.Outcome.next.inj h
  · exact .inr rfl
  · exact .inl ⟨_, rfl⟩

/-- Everything a round of a stream that ends can be: it ends at the read, or at the write, or goes on to the next read. -/
theorem streamLoop_cons_inv {r : ReadTurn} {reads : List ReadTurn} {writes : List WriteTurn} {t t' : Task}
    (h : streamLoop (r :: reads) writes t = .next t') :
    ∃ t₁, takeRead r t = .next t₁ ∧
      ((∃ v, t₁.phase = .ended v ∧ t₁ = t') ∨
       ∃ n w rest t₂, t₁.phase = .writing n ∧ writes = w :: rest ∧ takeWrite w n t₁ = .next t₂ ∧
         ((∃ v, t₂.phase = .ended v ∧ t₂ = t') ∨ (t₂.phase = .reading ∧ streamLoop reads rest t₂ = .next t'))) := by
  have hturns := h
  rw [streamLoop] at hturns
  obtain ⟨t₁, hread, hcont⟩ := andThen_eq_next.mp hturns
  obtain ⟨_, -, hanswer⟩ := andThen_eq_next.mp hread
  refine ⟨t₁, hread, ?_⟩
  rcases onRead_phase hanswer with ⟨v, hv⟩ | ⟨n, hn⟩
  · rw [streamLoop_of_read_ended hread hv] at h
    exact .inl ⟨v, hv, Host.Outcome.next.inj h⟩
  · cases writes with
    | nil =>
      rw [streamLoop_of_write_stuck hread hn] at h
      cases h
    | cons w rest =>
      simp only [hn] at hcont
      obtain ⟨t₂, hwrite, -⟩ := andThen_eq_next.mp hcont
      obtain ⟨_, -, hanswer⟩ := andThen_eq_next.mp hwrite
      refine .inr ⟨n, w, rest, t₂, hn, rfl, hwrite, ?_⟩
      rcases onWrite_phase hanswer with ⟨v, hv⟩ | hv
      · rw [streamLoop_of_write_ended hread hn hwrite hv] at h
        exact .inl ⟨v, hv, Host.Outcome.next.inj h⟩
      · rw [streamLoop_of_written hread hn hwrite hv] at h
        exact .inr ⟨hv, h⟩

/-- A read of 0 bytes ends a stream with success (R210). -/
theorem streamLoop_end (t : Task) (reads : List ReadTurn) (writes : List WriteTurn) :
    streamLoop (⟨[], .bytes []⟩ :: reads) writes t = .next { t with phase := .ended .succeeded } :=
  streamLoop_of_read_ended (by simp [takeRead_nil, onRead]) rfl reads writes

/-- A read error ends a stream unchanged (R216). -/
theorem streamLoop_read_error (t : Task) (e : Nat) (reads : List ReadTurn) (writes : List WriteTurn) :
    streamLoop (⟨[], .error e⟩ :: reads) writes t = .next { t with phase := .ended (.ioError e) } :=
  streamLoop_of_read_ended (takeRead_nil (.error e) t) rfl reads writes

/-- A write error ends a stream with its chunk combined and nothing of it in the sink (R216). -/
theorem streamLoop_write_error {t : Task} {bs : List Byte} (ht : t.AtRead) (hb : bs ≠ []) (hl : bs.length ≤ t.chunk)
    (e : Nat) (reads : List ReadTurn) (writes : List WriteTurn) :
    ∃ t', streamLoop (⟨[], .bytes bs⟩ :: reads) (⟨[], .error e⟩ :: writes) t = .next t' ∧
      t'.phase = .ended (.ioError e) ∧ t'.sink = t.sink ∧
      t'.core.words = advance^[blocksFor bs.length] t.core.words := by
  obtain ⟨core, r, hread, -, hw, -⟩ := onRead_bytes ht hb hl
  rw [← takeRead_nil] at hread
  exact ⟨_, streamLoop_of_write_ended hread rfl (takeWrite_nil (.error e) _ _) rfl reads writes, rfl, rfl, hw⟩

/-- A sink that never answers the write of a chunk leaves the stream waiting (R216). -/
theorem streamLoop_write_stuck {t : Task} {bs : List Byte} (ht : t.AtRead) (hb : bs ≠ []) (hl : bs.length ≤ t.chunk)
    (reads : List ReadTurn) : streamLoop (⟨[], .bytes bs⟩ :: reads) [] t = .fault .channelNeverAnswers := by
  obtain ⟨core, r, hread, -⟩ := onRead_bytes ht hb hl
  rw [← takeRead_nil] at hread
  exact streamLoop_of_write_stuck hread rfl reads

/-- A stream at its read whose CORE another agent has disposed. -/
structure Task.DisposedAtRead (t : Task) : Prop where
  disposed : t.core.life = .disposed
  chunk_le : t.chunk ≤ 2 ^ 31 - 1
  inbuf_length : t.inbuf.length = t.chunk
  outbuf_length : t.outbuf.length = t.chunk

/-- How a stream that lost its cipher ends: with 0x08 from its COMBINE, on a DISPOSED CORE, the sink as given (R215). -/
structure Task.EndedDisposed (t : Task) (sink : List Byte) : Prop where
  phase_eq : t.phase = .ended (.failed 0x08)
  sink_eq : t.sink = sink
  life_eq : t.core.life = .disposed
  lastCode_eq : t.core.lastCode = 0x08

/-- A chunk read when other agents' commands have left the CORE DISPOSED ends the stream (R215, R221). -/
theorem streamLoop_of_disposed {t t₁ : Task} {others : List Transaction} {bs : List Byte}
    (ho : onOthers others t = .next t₁) (hd : t₁.DisposedAtRead) (hb : bs ≠ []) (hl : bs.length ≤ t₁.chunk)
    (reads : List ReadTurn) (writes : List WriteTurn) :
    ∃ t', streamLoop (⟨others, .bytes bs⟩ :: reads) writes t = .next t' ∧ t'.EndedDisposed t₁.sink := by
  have hread := onRead_disposed hd.disposed hd.chunk_le hd.inbuf_length hd.outbuf_length hb hl
  have hturn : takeRead ⟨others, .bytes bs⟩ t = onRead (.bytes bs) t₁ := by rw [takeRead, ho, andThen_next]
  exact ⟨_, streamLoop_of_read_ended (hturn.trans hread) rfl reads writes, rfl, rfl, hd.disposed, rfl⟩

/-- A DISPOSE taken before a read answers ends the stream at that chunk's COMBINE (R215, R221). -/
theorem streamLoop_dispose_before_read {t : Task} {last : List Byte} {a b : Buf} (x : Word) (ht : t.AtRead)
    (hb : last ≠ []) (hl : last.length ≤ t.chunk) (hwa : a.wf = true) (hwb : b.wf = true) (reads : List ReadTurn)
    (writes : List WriteTurn) :
    ∃ t', streamLoop (⟨[⟨0x00000003, a, b, x⟩], .bytes last⟩ :: reads) writes t = .next t' ∧
      t'.EndedDisposed t.sink := by
  obtain ⟨core, ho, hd⟩ := onOthers_dispose (t := t) x hwa hwb
  exact streamLoop_of_disposed ho ⟨hd, ht.chunk_le, ht.inbuf_length, ht.outbuf_length⟩ hb hl reads writes

/-- A DISPOSE taken before a write answers does not keep the chunk out of the sink (R221). -/
theorem takeWrite_dispose {t : Task} {a b : Buf} (x : Word) (n : Nat) (hc : t.chunk ≤ 2 ^ 31 - 1)
    (hi : t.inbuf.length = t.chunk) (ho : t.outbuf.length = t.chunk) (hwa : a.wf = true) (hwb : b.wf = true) :
    ∃ t', takeWrite ⟨[⟨0x00000003, a, b, x⟩], .done⟩ n t = .next t' ∧ t'.phase = .reading ∧ t'.DisposedAtRead ∧
      t'.chunk = t.chunk ∧ t'.sink = t.sink ++ t.outbuf.take n := by
  obtain ⟨core, hothers, hd⟩ := onOthers_dispose (t := t) x hwa hwb
  have hturn : takeWrite ⟨[⟨0x00000003, a, b, x⟩], .done⟩ n t = onWrite .done n { t with core } := by
    rw [takeWrite, hothers, andThen_next]
  exact ⟨_, hturn, rfl, ⟨hd, hc, hi, ho⟩, rfl, rfl⟩

/-- A DISPOSE taken before a write answers lets that chunk be written and ends the stream at the next one's COMBINE
(R215, R221). -/
theorem streamLoop_dispose_before_write {t : Task} {mid last : List Byte} {a b : Buf} (x : Word) (ht : t.AtRead)
    (hb : ∀ c ∈ [mid, last], c ≠ [] ∧ c.length ≤ t.chunk) (hwa : a.wf = true) (hwb : b.wf = true)
    (reads : List ReadTurn) (writes : List WriteTurn) :
    ∃ t', streamLoop (⟨[], .bytes mid⟩ :: ⟨[], .bytes last⟩ :: reads) (⟨[⟨0x00000003, a, b, x⟩], .done⟩ :: writes) t =
      .next t' ∧ t'.EndedDisposed (t.sink ++ cipherOf t.core.words mid) := by
  obtain ⟨hmid, hmidl⟩ := hb mid (by simp)
  obtain ⟨hlast, hlastl⟩ := hb last (by simp)
  obtain ⟨core, r, hread, -, -, hrlen, hrtake⟩ := onRead_bytes ht hmid hmidl
  rw [← takeRead_nil] at hread
  have hin : (mid ++ t.inbuf.drop mid.length).length = t.chunk := by
    rw [List.length_append, List.length_drop, ht.inbuf_length]
    omega
  obtain ⟨t₂, hwrite, hp, hd, hc, hs⟩ := takeWrite_dispose (t := { t with
    core, inbuf := mid ++ t.inbuf.drop mid.length, outbuf := r, phase := .writing mid.length })
    x mid.length ht.chunk_le hin hrlen hwa hwb
  rw [hrtake] at hs
  rw [streamLoop_of_written hread rfl hwrite hp, ← hs]
  exact streamLoop_of_disposed rfl hd hlast (hlastl.trans hc.ge) reads writes

/-! ### A stream that owns its CORE (R212) -/

/-- What a stream has made of its chunks grows by the cipher of each further one (R212). -/
theorem cipherChunks_append_singleton (w : Words) (chunks : List (List Byte)) (b : List Byte) :
    cipherChunks w (chunks ++ [b]) =
      cipherChunks w chunks ++ cipherOf (advance^[(chunks.map fun c => blocksFor c.length).sum] w) b := by
  induction chunks generalizing w with
  | nil => simp [cipherChunks]
  | cons c cs ih =>
    rw [List.cons_append, cipherChunks, cipherChunks, ih, List.append_assoc, List.map_cons, List.sum_cons,
      Nat.add_comm, Function.iterate_add_apply]

section
variable {chunks : List (List Byte)} {chunk : Int} {s : State} (hr : s.life = .ready) (h1 : 1 ≤ chunk)
  (h2 : chunk ≤ 2 ^ 31 - 1) (hb : ∀ b ∈ chunks, b ≠ [] ∧ (b.length : Int) ≤ chunk)
include hr h1 h2 hb

/-- A stream that owns a READY CORE goes through its first chunks whatever the channels answer afterwards (R212). -/
theorem encryptStream_rounds : ∃ t : Task, t.AtRead ∧ t.chunk = chunk.toNat ∧
    t.core.words = advance^[(chunks.map fun b => blocksFor b.length).sum] s.words ∧
    t.sink = cipherChunks s.words chunks ∧ ∀ reads writes,
      encryptStream (some (chunks.map (fun _ => ⟨[], .done⟩) ++ writes))
        (some (chunks.map (fun b => ⟨[], .bytes b⟩) ++ reads)) chunk s = streamLoop reads writes t := by
  have hstart := streamStart_ready h1 h2 hr
  have hzeros : (zeros chunk.toNat).length = chunk.toNat := List.length_replicate
  have hread : Task.AtRead ⟨s, chunk.toNat, zeros chunk.toNat, zeros chunk.toNat, [], .reading⟩ :=
    ⟨rfl, hr, by dsimp only; omega, hzeros, hzeros⟩
  obtain ⟨t, ht, hc, hw, hs, hloop⟩ := streamLoop_rounds chunks hread fun b hbm => by
    obtain ⟨hne, hle⟩ := hb b hbm
    exact ⟨hne, by dsimp only; omega⟩
  exact ⟨t, ht, hc, hw, hs, fun reads writes => (encryptStream_of_start_reading hstart rfl).trans (hloop reads writes)⟩

/-- A stream that owns a READY CORE and reads its chunks and then 0 bytes succeeds (R212). -/
theorem encryptStream_succeeds : ∃ u, encryptStream (some (chunks.map fun _ => ⟨[], .done⟩))
      (some (chunks.map (fun b => ⟨[], .bytes b⟩) ++ [⟨[], .bytes []⟩])) chunk s = .next u ∧
    u.phase = .ended .succeeded ∧ u.sink = cipherChunks s.words chunks ∧
    u.core.words = advance^[(chunks.map fun b => blocksFor b.length).sum] s.words := by
  obtain ⟨t, -, -, hw, hs, hloop⟩ := encryptStream_rounds hr h1 h2 hb
  have hend := (hloop [⟨[], .bytes []⟩] []).trans (streamLoop_end t [] [])
  rw [List.append_nil] at hend
  exact ⟨_, hend, rfl, hs, hw⟩

end

/-- Whole blocks first: the block steps of the chunks are those of one COMBINE over all of them (R187, R212). -/
theorem sum_blocksFor_wholeBlocks {chunks : List (List Byte)} (h : ∀ b ∈ chunks.dropLast, b.length % 64 = 0) :
    (chunks.map fun b => blocksFor b.length).sum = blocksFor chunks.flatten.length := by
  induction chunks with
  | nil => rfl
  | cons b bs ih =>
    cases bs with
    | nil => simp
    | cons c cs =>
      have hb : b.length % 64 = 0 := h b (by simp)
      have ih := ih fun d hd => h d (by rw [List.dropLast_cons_cons]; exact List.mem_cons_of_mem b hd)
      rw [List.map_cons, List.sum_cons, ih, List.flatten_cons (l := b), List.length_append]
      simp only [blocksFor_eq_ceil]
      omega

/-- Settles O56: with whole blocks first, both the bytes and the block steps of the chunks are those of one COMBINE. -/
theorem streamOfWholeBlocksIsOneCombine : Obligations.StreamOfWholeBlocksIsOneCombine := by
  intro chunks out x chunk s hr h1 h2 hb hblocks hx ho
  obtain ⟨t, ht, hp, hs, hw⟩ := encryptStream_succeeds hr h1 h2 hb
  obtain ⟨u, hu, -, huw, hresp⟩ := exec_combineForm_whole (i := .combine (.present out) (.present chunks.flatten) x)
    List.mem_cons_self hr hx ho
  refine ⟨t, u, ht, hp, hu, ?_, ?_⟩
  · rw [hresp, hs, cipherChunks_wholeBlocks _ _ hblocks]
  · rw [hw, huw, sum_blocksFor_wholeBlocks hblocks]

/-! ### Decrypting a stream (R213) -/

/-- The cipher of a stream's output, cut as the stream's reads were, is what the stream read (R193, R213). -/
theorem cipherChunks_cipherChunks {w : Words} {chunks pieces : List (List Byte)}
    (hl : pieces.map List.length = chunks.map List.length) (hp : pieces.flatten = cipherChunks w chunks) :
    cipherChunks w pieces = chunks.flatten := by
  induction chunks generalizing w pieces with
  | nil =>
    obtain rfl := List.map_eq_nil_iff.mp hl
    rfl
  | cons b bs ih =>
    cases pieces with
    | nil => cases hl
    | cons p ps =>
      obtain ⟨hpb, hls⟩ := List.cons.inj hl
      obtain ⟨rfl, hrest⟩ := List.append_inj hp (hpb.trans (cipherOf_length w b).symm)
      rw [cipherChunks, cipherOf_cipherOf, cipherOf_length, ih hls hrest, List.flatten_cons]

/-- The block steps of a stream depend on the lengths of its chunks alone (R212). -/
theorem sum_blocksFor_congr {chunks pieces : List (List Byte)} (hl : pieces.map List.length = chunks.map List.length) :
    (pieces.map fun b => blocksFor b.length).sum = (chunks.map fun b => blocksFor b.length).sum := by
  have h := congrArg (fun l => (l.map blocksFor).sum) hl
  simpa only [List.map_map, Function.comp_def] using h

/-- Settles O57: reads of the same lengths undo each other one by one; whole blocks make each stream one COMBINE, and the
cipher undoes itself. -/
theorem streamOfTheSameReadsDecrypts : Obligations.StreamOfTheSameReadsDecrypts := by
  intro chunks pieces chunk chunk' s s' t hr hr' hws h1 h2 h1' h2' hb hb' ht hp hcut
  obtain ⟨t', ht', -, hs, hw⟩ := encryptStream_succeeds hr h1 h2 hb
  obtain rfl := Host.Outcome.next.inj (ht.symm.trans ht')
  obtain ⟨u, hu, hup, hus, huw⟩ := encryptStream_succeeds hr' h1' h2' hb'
  rw [hs] at hp
  rw [hws] at hus huw
  refine ⟨u, hu, hup, ?_, ?_⟩
  · rcases hcut with hl | ⟨hblocks, hblocks'⟩
    · rw [hus, cipherChunks_cipherChunks hl hp]
    · rw [hus, cipherChunks_wholeBlocks _ _ hblocks', hp, cipherChunks_wholeBlocks _ _ hblocks, cipherOf_cipherOf]
  · rcases hcut with hl | ⟨hblocks, hblocks'⟩
    · rw [huw, hw, sum_blocksFor_congr hl]
    · rw [huw, hw, sum_blocksFor_wholeBlocks hblocks', sum_blocksFor_wholeBlocks hblocks, hp, cipherChunks_length]

/-! ### Errors of a channel and of another agent (R215, R216, R221) -/

/-- The counter pair after the block steps of a stream's chunks (R185, R212). -/
theorem counterPair_chunks (w : Words) (chunks : List (List Byte)) :
    counterPair (advance^[(chunks.map fun b => blocksFor b.length).sum] w) =
      (counterPair w + (chunks.map fun b => (b.length + 63) / 64).sum) % 2 ^ 64 := by
  simp only [counterPair_iterate, blocksFor_eq_ceil]

/-- Settles O58: the chunks take the stream to its next read, and from there each channel's answer ends it. -/
theorem streamErrorsKeepWhatWasDone : Obligations.StreamErrorsKeepWhatWasDone := by
  intro chunks chunk e s hr h1 h2 hb
  obtain ⟨u, hu, hup, hus, -⟩ := encryptStream_succeeds hr h1 h2 hb
  obtain ⟨t, hat, hc, hw, hs, hloop⟩ := encryptStream_rounds hr h1 h2 hb
  refine ⟨u, hu, hup, ?readError, fun last hne hle => ?writeError, ?readStuck, fun last hne hle => ?writeStuck⟩
  case readError =>
    have h := (hloop [⟨[], .error e⟩] []).trans (streamLoop_read_error t e [] [])
    rw [List.append_nil] at h
    refine ⟨_, h, rfl, hs.trans hus.symm, ?_, ?_⟩
    · rw [← cipherChunks_length s.words]
      exact congrArg List.length hs
    · rw [← counterPair_chunks]
      exact congrArg counterPair hw
  case writeError =>
    obtain ⟨t', h, hp', hs', hw'⟩ := streamLoop_write_error hat hne (by omega) e [] []
    refine ⟨t', ?_, hp', hs'.trans (hs.trans hus.symm), ?_⟩
    · rw [List.map_append]
      exact (hloop _ _).trans h
    · rw [hw', hw, ← Function.iterate_add_apply, ← counterPair_chunks]
      simp [Nat.add_comm]
  case readStuck =>
    have h := hloop [] []
    rwa [List.append_nil, List.append_nil] at h
  case writeStuck =>
    have h := (hloop [⟨[], .bytes last⟩] []).trans (streamLoop_write_stuck hat hne (by omega) [])
    rw [List.append_nil] at h
    rwa [List.map_append]

/-- Settles O59: the chunks take the stream to the read, or to the read before the write, at which the DISPOSE is
taken. -/
theorem streamStopsWhenDisposed : Obligations.StreamStopsWhenDisposed := by
  refine ⟨fun chunks last chunk s a b x hr h1 h2 hb hwa hwb => ?_,
    fun chunks mid last chunk s a b x hr h1 h2 hb hwa hwb => ?_⟩
  · obtain ⟨hchunks, hlast⟩ := List.forall_mem_append.mp hb
    obtain ⟨hne, hle⟩ := List.forall_mem_singleton.mp hlast
    obtain ⟨u, hu, hup, hus, -⟩ := encryptStream_succeeds hr h1 h2 hchunks
    obtain ⟨t, hat, hc, -, hs, hloop⟩ := encryptStream_rounds hr h1 h2 hchunks
    obtain ⟨t', h, hend⟩ := streamLoop_dispose_before_read x hat hne (by omega) hwa hwb [] []
    have hrun := (hloop _ _).trans h
    have hsink : t'.sink = cipherChunks s.words chunks := hend.sink_eq.trans hs
    rw [List.append_nil] at hrun
    exact ⟨u, t', hu, hup, hrun, hend.phase_eq, hsink.trans hus.symm, by rw [hsink, cipherChunks_length],
      hend.life_eq, hend.lastCode_eq⟩
  · obtain ⟨hchunks, hlasts⟩ := List.forall_mem_append.mp hb
    have hmid : ∀ b ∈ [mid], b ≠ [] ∧ (b.length : Int) ≤ chunk := List.forall_mem_singleton.mpr (hlasts mid (by simp))
    have hwritten := List.forall_mem_append.mpr ⟨hchunks, hmid⟩
    obtain ⟨u, hu, hup, hus, -⟩ := encryptStream_succeeds hr h1 h2 hwritten
    obtain ⟨t, hat, hc, hw, hs, hloop⟩ := encryptStream_rounds hr h1 h2 hchunks
    have hlasts : ∀ c ∈ [mid, last], c ≠ [] ∧ c.length ≤ t.chunk := fun c hm =>
      (hlasts c hm).imp id fun hle => by omega
    obtain ⟨t', h, hend⟩ := streamLoop_dispose_before_write x hat hlasts hwa hwb [] []
    have hsink : t'.sink = cipherChunks s.words (chunks ++ [mid]) := by
      rw [hend.sink_eq, hs, hw, cipherChunks_append_singleton]
    refine ⟨u, t', hu, hup, ?_, hend.phase_eq, hsink.trans hus.symm, by rw [hsink, cipherChunks_length], hend.life_eq,
      hend.lastCode_eq⟩
    rw [List.map_append]
    exact (hloop _ _).trans h

/-! ### The suspension-capable stream (R214, R221) -/

/-- Other agents' commands and then an answer, as two events, are one turn at a read (R221). -/
theorem resumeAll_takeRead {r : ReadTurn} {t t₁ : Task} (ht : t.phase = .reading) (h : takeRead r t = .next t₁)
    (es : List Event) : resumeAll (.others r.others :: .read r.answer :: es) t = resumeAll es t₁ := by
  obtain ⟨t₀, ho, hread⟩ := andThen_eq_next.mp h
  have hp : t₀.phase = .reading := (onOthers_phase ho).trans ht
  simp only [resumeAll, resume, ht, hp, ho, hread, andThen_next]

/-- Other agents' commands and then an answer, as two events, are one turn at a write (R221). -/
theorem resumeAll_takeWrite {w : WriteTurn} {n : Nat} {t t₁ : Task} (ht : t.phase = .writing n)
    (h : takeWrite w n t = .next t₁) (es : List Event) :
    resumeAll (.others w.others :: .wrote w.answer :: es) t = resumeAll es t₁ := by
  obtain ⟨t₀, ho, hwrite⟩ := andThen_eq_next.mp h
  have hp : t₀.phase = .writing n := (onOthers_phase ho).trans ht
  simp only [resumeAll, resume, ht, hp, ho, hwrite, andThen_next]

/-- The events of a round begin with its read, whether or not its write answers. -/
theorem eventsOf_cons (r : ReadTurn) (reads : List ReadTurn) (writes : List WriteTurn) :
    ∃ es, eventsOf (r :: reads) writes = .others r.others :: .read r.answer :: es := by
  cases writes <;> exact ⟨_, rfl⟩

/-- From any read on, the loop run to its end is the stream resumed by its events (R214). -/
theorem resumeAll_eventsOf {reads : List ReadTurn} {writes : List WriteTurn} {t t' : Task} (ht : t.phase = .reading)
    (h : streamLoop reads writes t = .next t') : resumeAll (eventsOf reads writes) t = .next t' := by
  induction reads generalizing writes t with
  | nil => cases h
  | cons r reads ih =>
    obtain ⟨t₁, hread, ⟨v, hv, rfl⟩ | ⟨n, w, rest, t₂, hn, rfl, hwrite, hend⟩⟩ := streamLoop_cons_inv h
    · obtain ⟨es, he⟩ := eventsOf_cons r reads writes
      rw [he, resumeAll_takeRead ht hread, resumeAll_ended es t₁ v hv]
    · rw [eventsOf, resumeAll_takeRead ht hread, resumeAll_takeWrite hn hwrite]
      rcases hend with ⟨v, hv, rfl⟩ | ⟨hp, hrest⟩
      · exact resumeAll_ended _ t₂ v hv
      · exact ih hp hrest

/-- Settles O60: a stream that starts ended ignores its events, and one that starts at its read is the loop. -/
theorem asyncStreamMatchesSynchronous : Obligations.AsyncStreamMatchesSynchronous := by
  intro reads writes chunk s start t hstart h
  rcases streamStart_phase hstart with hp | ⟨v, hv⟩
  · rw [encryptStream_of_start_reading hstart hp] at h
    exact resumeAll_eventsOf hp h
  · rw [resumeAll_ended _ start v hv, ← h]
    exact (encryptStream_of_start_ended (source := some reads) (sink := some writes) hstart hv).symm

end Sys2Proof.Machine
end

section
/-! PROOFS. How DISPOSE and an invalid INIT or COMBINE end, what ends disposal, and the statements of 45_lifecycle.md. -/

namespace Sys2Proof.Machine

/-! ### DISPOSE (R230, R231) -/

/-- Settles O37: DISPOSE branches on LIFE alone, and `zeroWords` is the S it leaves. -/
theorem disposeZeroesState : Obligations.DisposeZeroesState := by
  refine fun s => ⟨fun hr => ?_, fun hd => ?_⟩
  · rw [exec_dispose, execDispose_eq, if_pos hr, respond_eq]
    rfl
  · rw [exec_dispose, execDispose_eq, if_neg (by simp [hd]), respond_eq]
    rfl

/-- The two ways a DISPOSE can end, by LIFE (R230). -/
theorem execDispose_inv {s u : State} (h : execDispose s = .next u) :
    (s.life = .ready ∧ u = { s with
      words := zeroWords, life := .disposed, lastCode := 0x00, response := some ⟨0x00, .absent⟩ }) ∨
    (s.life = .disposed ∧ u = { s with lastCode := 0x00, response := some ⟨0x00, .absent⟩ }) := by
  obtain ⟨hready, hdisposed⟩ := disposeZeroesState s
  obtain hl | hl : s.life = .ready ∨ s.life = .disposed := by cases s.life <;> simp
  · exact .inl ⟨hl, Host.Outcome.next.inj (h.symm.trans (hready hl))⟩
  · exact .inr ⟨hl, Host.Outcome.next.inj (h.symm.trans (hdisposed hl))⟩

/-- Settles O38: either ending of the first DISPOSE is DISPOSED and already holds what the second writes. -/
theorem disposeIsIdempotent : Obligations.DisposeIsIdempotent := by
  intro s t h
  rcases execDispose_inv h with ⟨-, rfl⟩ | ⟨hd, rfl⟩
  · exact (disposeZeroesState _).2 rfl
  · exact (disposeZeroesState _).2 hd

/-- A DISPOSE answers 0x00 and leaves DISPOSED; S is zero after it when it was zero whenever DISPOSED (R25, R230). -/
theorem execDispose_disposes {s u : State} (h : execDispose s = .next u) :
    u.lastCode = 0x00 ∧ u.life = .disposed ∧ ((s.life = .disposed → s.words = zeroWords) → u.words = zeroWords) := by
  rcases execDispose_inv h with ⟨-, rfl⟩ | ⟨hd, rfl⟩
  · exact ⟨rfl, rfl, fun _ => rfl⟩
  · exact ⟨rfl, hd, fun hz => hz hd⟩

/-! ### What ends disposal (R233) -/

/-- Only an INIT that answers 0x00 leads from DISPOSED to READY; every other transaction leaves LIFE or disposes. -/
theorem decode_eq_init_of_disposed_of_ready {t : Transaction} {s u : State} (hs : s.life = .disposed)
    (h : issue t s = .next u) (hu : u.life = .ready) :
    u.lastCode = 0x00 ∧ ∃ key nonce ctr, decode t = .ok (.init key nonce ctr) := by
  have hne : u.life ≠ .disposed := by simp [hu]
  rcases issue_inv h with ⟨-, rfl⟩ | ⟨k, n, c, hd, hi⟩ | ⟨out, inp, x, i, w, -, -, hi⟩ | ⟨-, hi⟩
  · exact absurd hs hne
  · rcases execInit_inv hi with ⟨hc, -⟩ | ⟨-, hfail⟩
    · exact ⟨hc, k, n, c, hd⟩
    · exact absurd (congrArg State.life hfail) hne
  · obtain ⟨hl, -⟩ := combineAt_words hi
    exact absurd (hl.trans hs) hne
  · obtain ⟨-, hl, -⟩ := execDispose_disposes hi
    exact absurd hl hne

/-- Settles O36: LIFE is the first check of every COMBINE form, and no other transaction than INIT leaves DISPOSED. -/
theorem onlyInitEndsDisposal : Obligations.OnlyInitEndsDisposal := fun s hs =>
  ⟨fun out inp x i hm => (combineErrorsInPriorityOrder out inp x s i hm).1 hs,
    fun _ _ h hu => decode_eq_init_of_disposed_of_ready hs h hu⟩

/-! ### The rows of the lifecycle table (R232) -/

/-- An answered transaction leaves what the command it decodes to leaves (R74). -/
theorem eq_of_issue_of_exec {t : Transaction} {i : Instr} {s u v : State} (h : issue t s = .next u) (hd : decode t = .ok i)
    (he : exec i s = .next v) : u = v :=
  Host.Outcome.next.inj (h.symm.trans ((issue_eq_exec (issue_wf h) hd s).trans he))

/-- What a transaction that decodes to no command answers (R74, R78). -/
theorem issue_inv_of_illegal {t : Transaction} {s u : State} (h : issue t s = .next u) (hd : ∀ i, decode t ≠ .ok i) :
    u = { s with lastCode := 0x09, response := some ⟨0x09, t.a⟩ } := by
  cases he : decode t with
  | error e => exact Host.Outcome.next.inj (h.symm.trans (issue_eq_illegal (issue_wf h) he s))
  | ok i => exact absurd he (hd i)

/-- An INIT without a key of 32 bytes and a nonce of 12 answers one of its three errors and ends the cipher (R130, R134). -/
theorem execInit_of_invalid {key nonce : Buf} (ctr : Word) (s : State)
    (h : ¬∃ k n, key = .present k ∧ nonce = .present n ∧ k.length = 32 ∧ n.length = 12) :
    ∃ c : Code, c.byte ∈ [0x01, 0x02, (0x03 : Byte)] ∧ execInit key nonce ctr s = respond c .absent s.endCipher := by
  cases key with
  | absent => exact ⟨_, by decide, execInit_of_key_absent nonce ctr s⟩
  | present k =>
    by_cases hk : k.length = 32
    · have hn : ∀ n, nonce = .present n → n.length ≠ 12 := fun n hp hn => h ⟨k, n, rfl, hp, hk, hn⟩
      exact ⟨_, by decide, execInit_of_nonce_invalid hk hn ctr s⟩
    · exact ⟨_, by decide, execInit_of_key_length_ne hk nonce ctr s⟩

/-- A COMBINE on a READY CORE whose operands are not those R180 executes fails a check, with one of four codes (R254). -/
theorem combineOperands_of_invalid {out inp : Buf} {x : Word}
    (h : ¬∃ (a b : List Byte) (n : Nat), out = .present a ∧ inp = .present b ∧ x.toInt = n ∧ n ≤ b.length ∧
      n ≤ a.length) :
    ∃ c : Code, c.byte ∈ [0x04, 0x05, 0x06, (0x07 : Byte)] ∧ combineOperands .ready out inp x = .error c := by
  cases hc : combineOperands .ready out inp x with
  | error c =>
    obtain ⟨hl, -⟩ | ⟨-, hcode⟩ := combineOperands_error hc
    · cases hl
    · exact ⟨c, by rcases hcode with rfl | rfl | rfl | rfl <;> decide, rfl⟩
  | ok ops =>
    obtain ⟨-, ho, hi, hx, hib, hob⟩ := combineOperands_eq_ok.mp hc
    exact absurd ⟨ops.out, ops.inp, ops.count, ho, hi, (countOf_eq_toInt x).symm.trans hx, hib, hob⟩ h

/-- A reset next at the port is taken (R280). -/
theorem step_of_queue_eq_reset {s : State} {rest : List Request} (hq : s.queue = .reset :: rest) :
    step s = .next { s.takeReset with queue := rest, response := none } := by
  simp only [step, serve, hq]

/-- Settles O39, row by row: each row is how its command, the illegal word or the reset ends. -/
theorem lifecycleTable : Obligations.LifecycleTable := by
  refine ⟨fun t s u hz h => ⟨fun k n ctr hd hk hn => ?validInit, fun key nonce ctr hd hbad => ?invalidInit,
    fun out inp x i hm hd hl => ?combineDisposed, fun a b x n i hm hd hr hx hb ha => ?combineValid,
    fun out inp x i hm hd hr hbad => ?combineInvalid, fun hd => ?dispose, fun hd => ?illegal⟩, fun s rest hq => ?reset⟩
  case validInit =>
    obtain rfl := eq_of_issue_of_exec h hd (initLoadsKeyCounterAndNonce k n ctr s hk hn)
    exact ⟨rfl, rfl, rfl⟩
  case invalidInit =>
    obtain ⟨c, hc, he⟩ := execInit_of_invalid ctr s hbad
    obtain rfl := eq_of_issue_of_exec h hd he
    exact ⟨hc, rfl, rfl⟩
  case combineDisposed =>
    obtain rfl := eq_of_issue_of_exec h hd ((onlyInitEndsDisposal s hl).1 out inp x i hm)
    exact ⟨rfl, hl, hz hl⟩
  case combineValid =>
    obtain ⟨v, r, hv, hw, hlife, hc, -⟩ := combineAt_success .b1 hr hx hb ha
    obtain rfl := eq_of_issue_of_exec h hd ((exec_combineForm_eq_scalar hm s).trans hv)
    exact ⟨hc, hlife.trans hr, by rw [hw, blocksFor_eq_ceil, block_snd]⟩
  case combineInvalid =>
    obtain ⟨c, hc, ho⟩ := combineOperands_of_invalid hbad
    obtain rfl := eq_of_issue_of_exec h hd (exec_combineForm_error hm (hr ▸ ho))
    exact ⟨hc, hr, rfl⟩
  case dispose =>
    obtain ⟨hc, hl, hw⟩ := execDispose_disposes ((issue_eq_exec (issue_wf h) hd s).symm.trans h)
    exact ⟨hc, hl, hw hz⟩
  case illegal =>
    obtain rfl := issue_inv_of_illegal h hd
    exact ⟨rfl, rfl, rfl⟩
  case reset => exact ⟨_, step_of_queue_eq_reset hq, rfl, rfl⟩

end Sys2Proof.Machine
end

section
/-! PROOFS. What a transaction does by its command word, the codes it can answer, what an error leaves, and the statements
of 60_exceptions.md. -/

namespace Sys2Proof.Machine

/-! ### Every command answers (R250, R255) -/

/-- Settles O43: no command stops, and an admissible transaction runs a command or is answered as illegal. -/
theorem everyCommandAnswers : Obligations.EveryCommandAnswers :=
  ⟨exec_next, fun _ s hw => issue_next hw s⟩

/-! ### What a transaction does, by its command word (R74, R75, R82) -/

/-- The word and the operands of a transaction that decodes to a COMBINE form (R75, R82). -/
theorem combineForm_of_decode {t : Transaction} {i : Instr} {out inp : Buf} {x : Word}
    (hm : i ∈ combineForms out inp x) (hd : decode t = .ok i) :
    t.cmd ∈ [0x00000002, 0x00000102, 0x00000202, 0x00000302, (0x00000402 : Word)] ∧ out = t.a ∧ inp = t.b ∧ x = t.x := by
  obtain rfl := encode_of_decode hd (combineForm_ne hm).1
  simp only [combineForms, List.mem_cons, List.not_mem_nil, or_false] at hm
  rcases hm with rfl | rfl | rfl | rfl | rfl <;> simp [encode, commandWord]

/-- An answered transaction is an illegal word, an INIT, a COMBINE at some width or a DISPOSE on its own operands. -/
theorem issue_inv_of_word {t : Transaction} {s u : State} (h : issue t s = .next u) :
    (t.cmd ∉ legalWords ∧ u = { s with lastCode := 0x09, response := some ⟨0x09, t.a⟩ }) ∨
    (t.cmd = 0x00000001 ∧ execInit t.a t.b t.x s = .next u) ∨
    (t.cmd ∈ [0x00000002, 0x00000102, 0x00000202, 0x00000302, (0x00000402 : Word)] ∧
      ∃ w, combineAt w t.a t.b t.x s = .next u) ∨
    (t.cmd = 0x00000003 ∧ execDispose s = .next u) := by
  rcases issue_inv h with ⟨⟨e, he⟩, hu⟩ | ⟨k, n, c, hd, hi⟩ | ⟨out, inp, x, i, w, hm, hd, hi⟩ | ⟨hd, hi⟩
  · refine .inl ⟨fun hl => ?_, hu⟩
    obtain ⟨i, hi⟩ := (decode_isOk_iff t).mpr hl
    cases he.symm.trans hi
  · obtain rfl := encode_of_decode hd (by simp)
    exact .inr (.inl ⟨rfl, hi⟩)
  · obtain ⟨hc, rfl, rfl, rfl⟩ := combineForm_of_decode hm hd
    exact .inr (.inr (.inl ⟨hc, w, hi⟩))
  · exact .inr (.inr (.inr ⟨decode_cmd hd, hi⟩))

/-! ### The codes (R251, R252) -/

/-- INIT answers 0x00 to 0x03 (R252). -/
theorem execInit_code {k n : Buf} {c : Word} {s u : State} (h : execInit k n c s = .next u) :
    u.lastCode ∈ [0x00, 0x01, 0x02, (0x03 : Byte)] := by
  rcases execInit_inv h with ⟨hc, -⟩ | ⟨hc, -⟩
  · simp [hc]
  · exact List.mem_cons_of_mem _ hc

/-- COMBINE answers 0x00 or one of the codes of its checks, 0x04 to 0x08 (R252). -/
theorem combineAt_code {w : LaneWidth} {out inp : Buf} {x : Word} {s u : State} (h : combineAt w out inp x s = .next u) :
    u.lastCode ∈ [0x00, 0x04, 0x05, 0x06, 0x07, (0x08 : Byte)] := by
  rcases combineAt_inv h with ⟨c, hc, rfl⟩ | ⟨-, -, hc, -⟩
  · rcases combineOperands_error hc with ⟨-, rfl⟩ | ⟨-, rfl | rfl | rfl | rfl⟩ <;> simp [Code.byte]
  · simp [hc]

/-- Settles O40: by the command word, with the codes INIT, COMBINE and DISPOSE can answer; 0x09 is none of them. -/
theorem codesEachCommandRaises : Obligations.CodesEachCommandRaises := by
  intro t s u h
  rcases issue_inv_of_word h with ⟨hc, rfl⟩ | ⟨hc, hi⟩ | ⟨hc, w, hi⟩ | ⟨hc, hi⟩
  · simp [legalWords] at hc
    simp [hc]
  · have hcode := execInit_code hi
    have hne : u.lastCode ≠ 0x09 := fun h9 => by simp [h9] at hcode
    exact ⟨fun h3 => by simp [hc] at h3, fun _ => hcode, fun hm => by simp [hc] at hm,
      iff_of_false hne (by simp [hc])⟩
  · have hcode := combineAt_code hi
    have hne : u.lastCode ≠ 0x09 := fun h9 => by simp [h9] at hcode
    exact ⟨fun h3 => by simp [h3] at hc, fun h1 => by simp [h1] at hc, fun _ => hcode,
      iff_of_false hne fun hbad => hbad (List.mem_cons_of_mem _ (List.mem_cons_of_mem _ hc))⟩
  · obtain ⟨hcode, -⟩ := execDispose_disposes hi
    simp [hc, hcode]

/-! ### What an error leaves (R253) -/

/-- A COMBINE that does not answer 0x00 writes only LAST_CODE, and its response buffer is the output as presented (R253). -/
theorem combineAt_of_code_ne_zero {w : LaneWidth} {out inp : Buf} {x : Word} {s u : State}
    (h : combineAt w out inp x s = .next u) (hne : u.lastCode ≠ 0x00) :
    u = { s with lastCode := u.lastCode, response := some ⟨u.lastCode, out⟩ } := by
  rcases combineAt_inv h with ⟨c, -, rfl⟩ | ⟨-, -, hc, -⟩
  · rfl
  · exact absurd hc hne

/-- An INIT that does not answer 0x00 leaves S zero and DISPOSED, and besides writes only LAST_CODE (R134, R253). -/
theorem execInit_of_code_ne_zero {k n : Buf} {c : Word} {s u : State} (h : execInit k n c s = .next u)
    (hne : u.lastCode ≠ 0x00) :
    u = { s with
      words := zeroWords, life := .disposed, lastCode := u.lastCode, response := some ⟨u.lastCode, .absent⟩ } := by
  rcases execInit_inv h with ⟨hc, -⟩ | ⟨-, hu⟩
  · exact absurd hc hne
  · exact hu

/-- Settles O41: by the command word; DISPOSE has no error, and 0x00000001 is neither illegal nor a COMBINE word. -/
theorem errorsWriteOnlyLastCode : Obligations.ErrorsWriteOnlyLastCode := by
  intro t s u h hne
  rcases issue_inv_of_word h with ⟨hc, rfl⟩ | ⟨hc, hi⟩ | ⟨hc, w, hi⟩ | ⟨-, hi⟩
  · exact ⟨fun h1 => absurd hc (by simp [h1, legalWords]), fun _ => rfl⟩
  · exact ⟨fun _ => execInit_of_code_ne_zero hi hne, fun h1 => absurd hc h1⟩
  · exact ⟨fun h1 => by simp [h1] at hc, fun _ => combineAt_of_code_ne_zero hi hne⟩
  · exact absurd (execDispose_disposes hi).1 hne

end Sys2Proof.Machine
end

section
/-! PROOFS. How a step ends on an empty port and on a request with a reset, how many block steps a COMBINE can make, and the
statements of 70_reset_and_hazards.md. -/

namespace Sys2Proof.Machine

/-! ### The port and reset (R280, R281) -/

/-- Settles O5: the step performs the next request, and here there is none. -/
theorem emptyPortWaits : Obligations.EmptyPortWaits := by
  intro s hq
  simp only [step, serve, hq]

/-- A command with a reset during it is overtaken by the reset, or issued and then followed by it, as the free value of
the draw says (R280, log 4). -/
theorem step_of_queue_eq_resetDuring {s : State} {t : Transaction} {rest : List Request}
    (hq : s.queue = .resetDuring t :: rest) (hw : t.wf = true) :
    step s =
      if Config.freeChoice s.draws then
        .next { State.takeReset { s with queue := rest, draws := s.draws.next } with response := none }
      else andThen (issue t { s with queue := rest, draws := s.draws.next }) fun v => .next v.takeReset := by
  simp only [step, serve, hq, issueWithReset, hw, if_true]

/-- Settles O7: a reset next at the port is taken at once. During a command, the command answers `v` if it is issued, and
either order of the two ends in the reset state; only the second delivers the response of `v`. -/
theorem resetIsTakenBetweenCommands : Obligations.ResetIsTakenBetweenCommands := by
  refine ⟨fun s rest hq => ⟨_, step_of_queue_eq_reset hq, rfl, rfl, rfl, rfl, rfl⟩, fun s t rest hq hw => ?_⟩
  obtain ⟨v, hv⟩ := issue_next hw { s with queue := rest, draws := s.draws.next }
  obtain ⟨hcap, hqueue⟩ := issue_frame hv
  have hstep := step_of_queue_eq_resetDuring hq hw
  by_cases hfirst : Config.freeChoice s.draws
  · rw [if_pos hfirst] at hstep
    exact ⟨_, v, _, hstep, hv, rfl, rfl, rfl, rfl, rfl, (if_pos hfirst).symm⟩
  · rw [if_neg hfirst, hv, andThen_next] at hstep
    exact ⟨_, v, _, hstep, hv, rfl, rfl, rfl, cap_congr hcap, hqueue, (if_neg hfirst).symm⟩

/-! ### The length of a COMBINE (R289) -/

/-- Settles O28: a COMBINE makes ceil(count / 64) block steps or none, and its count, a signed 32-bit word, is at most
2^31 - 1 whatever its buffers. -/
theorem combineIsBounded : Obligations.CombineIsBounded := by
  intro out inp x s t i hm _ h
  rw [exec_combineForm_eq_scalar hm] at h
  rw [block_snd]
  obtain ⟨-, ⟨-, n, hx, hw⟩ | ⟨-, hw⟩⟩ := combineAt_words h
  · have hcount : x.toInt < 2 ^ 31 := BitVec.toInt_lt
    exact ⟨(n + 63) / 64, by omega, hw⟩
  · exact ⟨0, Nat.zero_le _, hw⟩

end Sys2Proof.Machine
end
